-- ==== Sys2Proof/Word.lean ====
section
/-! DEFINITION. The byte and the byte string of spec/00_scope.md R11 and R12. -/

namespace Sys2Proof

/-- R11: a byte is 8 bits, an unsigned value 0 to 255. -/
abbrev Byte := BitVec 8

/-- R12: a byte string, first byte (lowest offset, first on the wire) first. -/
abbrev Bytes := List Byte

end Sys2Proof
end

