-- ==== Sys2Proof/Syntax.lean ====
section
/-! DEFINITION. The block's operations and the four frame headers: one constructor per row of
spec/opcode_table.json. -/

namespace Sys2Proof

/-- The rows of spec/opcode_table.json. The seven op words (format OPWORD8, spec/30_encoding.md R81, R82)
have no operand fields. The four frame headers (format FRAME_HEADER72, R70, R73) carry the address field, the
length field, and the bytes that follow the header on the wire: `length` of them in a well-formed frame,
`length - 2` payload bytes and the checksum (R74). -/
inductive Instr where
  /-- `OP = 0x01`: establish the session (R160). -/
  | cfg
  /-- `OP = 0x02`: encode a packet (R101). -/
  | enc
  /-- `OP = 0x03`: decode a frame (R104). -/
  | dec
  /-- `OP = 0x04`: build a command frame (R121). -/
  | cmd
  /-- `OP = 0x05`: parse an acknowledge frame (R125). -/
  | ack
  /-- `OP = 0x06`: split data and frame each chunk (R142). -/
  | dtx
  /-- `OP = 0x07`: unframe and reassemble data (R147). -/
  | drx
  /-- A frame whose header has packet type `0x01`, command (R73). -/
  | tCommand (address : BitVec 32) (length : BitVec 16) (body : Bytes)
  /-- A frame whose header has packet type `0x02`, data (R73). -/
  | tData (address : BitVec 32) (length : BitVec 16) (body : Bytes)
  /-- A frame whose header has packet type `0x07`, acknowledge (R73). -/
  | tAck (address : BitVec 32) (length : BitVec 16) (body : Bytes)
  /-- A frame whose header has packet type `0x08`, end_data (R73). -/
  | tEndData (address : BitVec 32) (length : BitVec 16) (body : Bytes)
  deriving DecidableEq, Repr

end Sys2Proof
end

