-- ==== Sys2Proof/WellFormed.lean ====
section
/-! DEFINITION. Which terms of `Instr` stand for bytes the encoding of spec/30_encoding.md admits. -/

namespace Sys2Proof

/-- R74: the length field counts the bytes after the header, payload and checksum. A value of the field below 2
or above the capacity is an encoding too (R80): `DEC` rejects such a frame, the header does not. -/
def Instr.wf : Instr → Bool
  | .cfg | .enc | .dec | .cmd | .ack | .dtx | .drx => true
  | .tCommand _ length body => body.length == length.toNat
  | .tData _ length body => body.length == length.toNat
  | .tAck _ length body => body.length == length.toNat
  | .tEndData _ length body => body.length == length.toNat

end Sys2Proof
end

