-- ==== Sys2Proof/Decode.lean ====
section
/-! DEFINITION. Byte order (spec/20_memory.md R51, spec/00_scope.md R13), the fixed codes of a frame
(spec/30_encoding.md R71, R73), the decoder of op words and of frames, and the encoder. -/

namespace Sys2Proof

/-! ### Byte order -/

/-- R13 `be16(v)`: the two bytes of `v`, most significant first. -/
def be16 (v : BitVec 16) : Bytes := [v.extractLsb' 8 8, v.extractLsb' 0 8]

/-- R13 `be32(v)`: the four bytes of `v`, most significant first. -/
def be32 (v : BitVec 32) : Bytes :=
  [v.extractLsb' 24 8, v.extractLsb' 16 8, v.extractLsb' 8 8, v.extractLsb' 0 8]

/-- The 16-bit value of two bytes, most significant first (R13 `BE16`). -/
def join16 (b1 b0 : Byte) : BitVec 16 := b1 ++ b0

/-- The 32-bit value of four bytes, most significant first (R13 `BE32`). -/
def join32 (b3 b2 b1 b0 : Byte) : BitVec 32 := ((b3 ++ b2) ++ b1) ++ b0

/-- `s[i]` of R12. Every rule reads inside the string only (R66), so the default is never a value read. -/
def byteAt (s : Bytes) (i : Nat) : Byte := s.getD i 0

/-- R13 `BE16(s, o)`. -/
def be16At (s : Bytes) (o : Nat) : BitVec 16 := join16 (byteAt s o) (byteAt s (o + 1))

/-- R13 `BE32(s, o)`. -/
def be32At (s : Bytes) (o : Nat) : BitVec 32 :=
  join32 (byteAt s o) (byteAt s (o + 1)) (byteAt s (o + 2)) (byteAt s (o + 3))

/-- `s[a .. a + n)` of R12. -/
def slice (s : Bytes) (a n : Nat) : Bytes := (s.drop a).take n

/-! ### The fixed codes of a frame -/

/-- R71: the first byte of the start code `0xEF01`. -/
def startHi : Byte := 0xEF

/-- R71: the second byte of the start code `0xEF01`. -/
def startLo : Byte := 0x01

/-- R73: `T_COMMAND`. -/
def typeCommand : Byte := 0x01

/-- R73: `T_DATA`. -/
def typeData : Byte := 0x02

/-- R73: `T_ACK`. -/
def typeAck : Byte := 0x07

/-- R73: `T_END_DATA`. -/
def typeEndData : Byte := 0x08

/-- R70: the 9-byte header. -/
def frameHeader (address : BitVec 32) (ptype : Byte) (length : BitVec 16) : Bytes :=
  [startHi, startLo] ++ be32 address ++ [ptype] ++ be16 length

/-! ### The decoder -/

/-- Why bytes are no row of the opcode table. -/
inductive DecodeError where
  /-- No byte at all. -/
  | noBytes
  /-- A reserved op word (R83, R166). -/
  | reservedOp (w : Byte)
  /-- Fewer than the 9 bytes of a header (R70). -/
  | shortHeader
  /-- The first two bytes are not `EF 01` (R71). -/
  | badStart
  /-- A packet type the source does not define (R80). -/
  | reservedType (t : Byte)
  /-- Fewer bytes after the header than its length field says (R74). -/
  | shortBody
  /-- More bytes after the header than its length field says (R74, R198: one frame per buffer). -/
  | trailingBytes
  deriving DecidableEq, Repr

/-- R82, R83: the op word written to `OP`. -/
def decodeOp (w : Byte) : Except DecodeError Instr :=
  if w = 0x01 then .ok .cfg
  else if w = 0x02 then .ok .enc
  else if w = 0x03 then .ok .dec
  else if w = 0x04 then .ok .cmd
  else if w = 0x05 then .ok .ack
  else if w = 0x06 then .ok .dtx
  else if w = 0x07 then .ok .drx
  else .error (.reservedOp w)

/-- R73, R80: the row that a header's packet type names. -/
def frameOfType (ptype : Byte) (address : BitVec 32) (length : BitVec 16) (body : Bytes) :
    Except DecodeError Instr :=
  if ptype = typeCommand then .ok (.tCommand address length body)
  else if ptype = typeData then .ok (.tData address length body)
  else if ptype = typeAck then .ok (.tAck address length body)
  else if ptype = typeEndData then .ok (.tEndData address length body)
  else .error (.reservedType ptype)

/-- R70, R74: one frame from the front of a byte string, and the bytes after it. -/
def decodeFrameFront : Bytes → Except DecodeError (Instr × Bytes)
  | s1 :: s0 :: a3 :: a2 :: a1 :: a0 :: t :: l1 :: l0 :: after =>
    if s1 = startHi ∧ s0 = startLo then
      match frameOfType t (join32 a3 a2 a1 a0) (join16 l1 l0) (after.take (join16 l1 l0).toNat) with
      | .error e => .error e
      | .ok i =>
        if (join16 l1 l0).toNat ≤ after.length then .ok (i, after.drop (join16 l1 l0).toNat)
        else .error .shortBody
    else .error .badStart
  | _ => .error .shortHeader

/-- A byte string that is exactly one frame of a defined type (R198). -/
def decodeFrame (s : Bytes) : Except DecodeError Instr :=
  match decodeFrameFront s with
  | .error e => .error e
  | .ok (i, []) => .ok i
  | .ok (_, _ :: _) => .error .trailingBytes

/-- The opcode table's eleven rows read from the front of a byte string, with the bytes left over. `0xEF`, the
first byte of every header, is a reserved op word (R83), so the first byte tells the two formats apart. On the
hardware the two never meet: an op word is written to `OP`, a frame lies in a buffer (DESIGN CHOICE, safe:
notes/assumptions/7.md). -/
def decode : Bytes → Except DecodeError (Instr × Bytes)
  | [] => .error .noBytes
  | b :: rest =>
    if b = startHi then decodeFrameFront (b :: rest)
    else
      match decodeOp b with
      | .error e => .error e
      | .ok i => .ok (i, rest)

/-! ### The encoder -/

/-- The bytes of a row of the table, from R82 and R70. -/
def encode : Instr → Bytes
  | .cfg => [0x01]
  | .enc => [0x02]
  | .dec => [0x03]
  | .cmd => [0x04]
  | .ack => [0x05]
  | .dtx => [0x06]
  | .drx => [0x07]
  | .tCommand address length body => frameHeader address typeCommand length ++ body
  | .tData address length body => frameHeader address typeData length ++ body
  | .tAck address length body => frameHeader address typeAck length ++ body
  | .tEndData address length body => frameHeader address typeEndData length ++ body

/-! ### The opcode table's own numbering -/

/-- The 72 bits of a header row as spec/opcode_table.json numbers them (the start code is bits 71 to 56, the
length bits 15 to 0), laid out as the wire has them (R70: most significant byte first), and then `length` bytes
of zero for the payload and checksum that the row gives no bits. -/
def tableFrame (w : Nat) : Bytes :=
  let h : BitVec 72 := BitVec.ofNat 72 w
  [h.extractLsb' 64 8, h.extractLsb' 56 8, h.extractLsb' 48 8, h.extractLsb' 40 8, h.extractLsb' 32 8,
   h.extractLsb' 24 8, h.extractLsb' 16 8, h.extractLsb' 8 8, h.extractLsb' 0 8] ++
  List.replicate (w % 65536) 0

/-- The bytes of a table row of `nbits` bits: an op word is one byte, a header row is its frame. -/
def tableBytes (nbits w : Nat) : Bytes :=
  if nbits ≤ 8 then [BitVec.ofNat 8 w] else tableFrame w

/-- The instruction the decoder reads from a row's bits. -/
def decodeTableWord (nbits w : Nat) : Option Instr :=
  match decode (tableBytes nbits w) with
  | .ok (i, []) => some i
  | _ => none

end Sys2Proof
end

