-- ==== Sys2Proof/Config.lean ====
section
/-! DEFINITION. What one instance of the block fixes (the model parameters of spec/00_scope.md R7), and the
free values: what a read that the spec calls unspecified returns (spec/93_implementation_defined.md U3, U4,
U9, U11). -/

namespace Sys2Proof.Config

/-- The model parameters of R7. They are plain data held in `State.params`, written by no step, so that a
statement over all states holds for every value of them (R126: a proof for every device quantifies over
`SUCCESS_SET`). DESIGN CHOICE, safe: notes/assumptions/1.md. -/
structure Params where
  /-- `SUCCESS_SET` (R126, D6): the status bytes that mean success. -/
  successSet : List Byte
  /-- `STAGE_SIZE` (R7, D12): bytes of the staging buffer of `CMD` and `DTX`. -/
  stageSize  : Nat
  /-- `MAX_FRAMES` (R7, D15): most strings in `IN` or `OUT`; `none` is unbounded. -/
  maxFrames  : Option Nat
  /-- `MAX_DATA` (R7, D15): most bytes in one string of `IN` or `OUT`; `none` is unbounded. -/
  maxData    : Option Nat
  deriving DecidableEq, Repr

/-- The defaults of R7 (D6, D12, D15): `{0x00}`, 267, unbounded, unbounded. -/
def Params.standard : Params :=
  { successSet := [0x00], stageSize := 267, maxFrames := none, maxData := none }

/-- The legal values of R7: `MAX_FRAMES` at least 1 and `MAX_DATA` at least 267, or unbounded. -/
def Params.legal (p : Params) : Bool :=
  (match p.maxFrames with | none => true | some n => decide (1 ≤ n)) &&
  (match p.maxData with | none => true | some n => decide (267 ≤ n))

/-- FREE VALUE (U3: "a fresh draw at every read; no claim may depend on it"). The `n`-th unspecified word; the
low bits are taken for a narrower register. It has no body: notes/assumptions/3.md. -/
opaque freeWord : Nat → BitVec 32

/-- FREE VALUE. The `n`-th unspecified value that has no width of its own: a count or a length (`IN_COUNT`,
`OUT_COUNT`, `IN_LEN`, `OUT_LEN`), or what a read of `RESET` or of a reserved index returns:
notes/assumptions/3.md and 12.md. -/
opaque freeCount : Nat → Nat

end Sys2Proof.Config
end

