-- ==== Sys2Proof/Machine/State.lean ====
section
/-! DEFINITION. The state of the Packet framer as plain data (spec/10_state.md), its reset value (R33), and the
reasons a step can stop. -/

namespace Sys2Proof.Machine

open Sys2Proof

/-! ### Results and errors -/

/-- R172: the labels of a frame error's cause. They are diagnostics: the host sees `RES_KIND = 1` for each. -/
inductive FrameCause where
  | space | short | start | addr | len | csum | ptype | empty
  deriving DecidableEq, Repr

/-- R170, R171: the two typed errors an operation can end in. They are results, not faults. -/
inductive OpError where
  | frame (cause : FrameCause)
  | status (s : Byte)
  deriving DecidableEq, Repr

/-- R24, R85: `RES_KIND`. The value 3 never occurs (U10). -/
inductive ResKind where
  | ok | frameError | statusError
  deriving DecidableEq, Repr

/-- R21: a packet, the decoded unit exchanged with the codec. -/
structure Packet where
  address : BitVec 32
  ptype   : Byte
  length  : BitVec 16
  payload : Bytes
  deriving DecidableEq, Repr

/-! ### Registers -/

/-- R26: `STATE`. The value 3 never occurs (U10). -/
inductive SeqState where
  | unconf | idle | busy
  deriving DecidableEq, Repr

/-- A register that may hold no defined value: `defined` says whether an operand register has been written
since reset (R35), or whether the operation that ended last specifies a result register (R24). Where it is false
a host read returns a fresh free value and no operation reads `val`. -/
structure Reg (w : Nat) where
  val     : BitVec w
  defined : Bool
  deriving DecidableEq, Repr

/-- R22: the session configuration `CFG_ADDR`, `CFG_CHUNK`, `CFG_CAPSEL`. -/
structure Session where
  address : BitVec 32
  chunk   : BitVec 16
  capsel  : BitVec 2
  deriving DecidableEq, Repr

/-- R23: the operand registers `ARG_ADDR`, `ARG_TYPE`, `ARG_CODE`, `ARG_CHUNK`, `ARG_CAPSEL`, `ARG_OUTCAP`. -/
structure Args where
  address : Reg 32
  ptype   : Reg 8
  code    : Reg 8
  chunk   : Reg 16
  capsel  : Reg 2
  outcap  : Reg 16
  deriving DecidableEq, Repr

/-- R24: the result registers `RES_KIND`, `RES_STATUS`, `RES_COUNT`, `RES_ADDR`, `RES_TYPE`, `RES_LEN`. -/
structure Results where
  kind    : ResKind
  status  : Reg 8
  count   : Reg 16
  address : Reg 32
  ptype   : Reg 8
  length  : Reg 16
  deriving DecidableEq, Repr

/-! ### Buffer spaces -/

/-- One string of `IN` as storage: `len` is `IN_LEN[i]`, or `none` when the host has not written it since reset
(R35); `cells` are the bytes written since reset, offsets strictly rising. A byte not listed holds no value. -/
structure InStr where
  len   : Option Nat
  cells : List Host.Cell
  deriving DecidableEq, Repr

/-- R28, R29: the buffer spaces. `inStrs` lists the strings of `IN` of which anything has been written since
reset, by index, indices strictly rising; `out` is `OUT`, so `OUT_COUNT` is its length and `OUT_LEN[k]` the
length of its entry `k`. -/
structure Memory where
  inCount : Nat
  inStrs  : List (Nat × InStr)
  out     : List Bytes
  deriving DecidableEq, Repr

/-! ### The running operation -/

/-- R143: the sender's phases. -/
inductive SenderPhase where
  | idle | emittingData | emittingEndData | done
  deriving DecidableEq, Repr

/-- R148: the receiver's phases; `failed` keeps the error that will be delivered. -/
inductive ReceiverPhase where
  | collecting | complete | failed (e : OpError)
  deriving DecidableEq, Repr

/-- R27, R30, R163: what the sequencer holds while `STATE = BUSY`: the operands sampled at issue, and the
cursors, the staging buffer and the accumulator of the operation. `stage` is what `STAGE` holds: the frame
encoded last. -/
inductive Running where
  | enc (address : BitVec 32) (ptype : Byte) (payload : Bytes) (outcap : BitVec 16)
  | dec (buffer : Bytes) (expected : BitVec 32)
  | cmd (code : Byte) (params : Bytes) (stage : Option Bytes)
  | ack (bytes : Bytes)
  | dtx (data : Bytes) (off : Nat) (phase : SenderPhase) (stage : Bytes) (frames : List Bytes)
  | drx (frames : List Bytes) (i : Nat) (phase : ReceiverPhase) (acc : Bytes)
  deriving DecidableEq, Repr

/-! ### The host -/

/-- What the host can do to the block (R25, R28, R29, R34, R86, R190, R205). A register is named by its index
of R25; a value on the bus is a natural number, since no bus width is given (D13, notes/assumptions/11.md). -/
inductive HostAct where
  /-- A line of R86: write the op word to `OP` and wait until `STATE = IDLE`, one atomic step (R206). -/
  | operate (w : Byte)
  /-- The transport hands one byte string over into `IN`, after the strings already there (R205). -/
  | carry (bytes : Bytes)
  /-- The host moves the string `OUT[k]` of one operation into `IN`, after the strings already there (R9). -/
  | relay (k : Nat)
  /-- Write a register of R25. Writing `OP` issues an operation and does not wait; writing `RESET` resets. -/
  | writeReg (index value : Nat)
  /-- Read a register of R25. -/
  | readReg (index : Nat)
  /-- Write `IN_LEN[i]` (R28). -/
  | writeInLen (i n : Nat)
  /-- Write one byte of `IN` (R28, R52). -/
  | writeIn (i j : Nat) (v : Byte)
  /-- Read `IN_LEN[i]`. -/
  | readInLen (i : Nat)
  /-- Read one byte of `IN`. -/
  | readIn (i j : Nat)
  /-- Read `OUT_LEN[k]` (R29). -/
  | readOutLen (k : Nat)
  /-- Read one byte of `OUT` (R29, R52). -/
  | readOut (k j : Nat)
  /-- The hardware reset input (R190). -/
  | resetInput
  /-- The host does nothing: the sequencer makes one pass of a running operation, if there is one. -/
  | wait
  deriving DecidableEq, Repr

/-! ### The state -/

/-- Everything the spec gives the block (R20), its parameters (R7), and three fields of the model's own: `host`,
the host's pending actions, oldest first; `readData`, the value the host's last read returned; `draws`, how many
free values have been drawn. -/
structure State where
  params   : Config.Params
  seq      : SeqState
  cfg      : Session
  args     : Args
  res      : Results
  mem      : Memory
  run      : Option Running
  host     : List HostAct
  readData : Nat
  draws    : Nat
  deriving DecidableEq, Repr

/-- Why the machine stops. `FrameError` and `StatusError` are results and never stand here
(spec/60_exceptions.md, opening). -/
inductive Fault where
  /-- Raised by `DTX` (its atomic meaning and its emitting pass) when the next chunk has 0 bytes: with
  `CHUNK_LEN = 0` the loop of R142 never advances, the stuck state of U6. `CFG` refuses a chunk length of 0
  (R161 (b)), so no run reaches it. Safe: nothing is claimed of such a session. -/
  | dtxNoProgress
  deriving DecidableEq, Repr

/-- Why an instruction has no meaning. The spec's own refusals (R165) are steps with no effect and never stand
here. -/
inductive Refusal where
  /-- An instruction of the table that has no meaning yet. No arm of `exec` answers it. Safe. -/
  | notModelled (mnemonic : String)
  deriving DecidableEq, Repr

/-- A register that holds no defined value: the bits are 0 (DESIGN CHOICE, unsafe: notes/assumptions/2.md) and
marked undefined. -/
def Reg.blank (w : Nat) : Reg w := { val := 0, defined := false }

/-- R33, R191: the block right after reset, with the default parameters of R7 and a host that asks nothing. -/
def State.reset : State :=
  { params := Config.Params.standard
    seq := .unconf
    cfg := { address := 0, chunk := 0, capsel := 0 }
    args := { address := Reg.blank 32, ptype := Reg.blank 8, code := Reg.blank 8, chunk := Reg.blank 16,
              capsel := Reg.blank 2, outcap := Reg.blank 16 }
    res := { kind := .ok, status := Reg.blank 8, count := Reg.blank 16, address := Reg.blank 32,
             ptype := Reg.blank 8, length := Reg.blank 16 }
    mem := { inCount := 0, inStrs := [], out := [] }
    run := none
    host := []
    readData := 0
    draws := 0 }

end Sys2Proof.Machine
end

