-- ==== Sys2Proof/Machine/Flags.lean ====
section
/-! DEFINITION. The result codes. The block has no condition flags (spec/10_state.md R31): its counterpart is the
result registers, written together when an operation ends (R24). -/

namespace Sys2Proof.Machine

open Sys2Proof

/-- R26: the two bits of `STATE`. -/
def SeqState.code : SeqState → BitVec 2
  | .unconf => 0
  | .idle => 1
  | .busy => 2

/-- R85: the two bits of `RES_KIND`. -/
def ResKind.code : ResKind → BitVec 2
  | .ok => 0
  | .frameError => 1
  | .statusError => 2

/-- R170, R171: the result kind of an error. -/
def OpError.kind : OpError → ResKind
  | .frame _ => .frameError
  | .status _ => .statusError

/-- A register the ending operation does not specify: a free value, marked undefined (R24, U3). -/
def Reg.free (w n : Nat) : Reg w := { val := (Config.freeWord n).setWidth w, defined := false }

/-- A register the ending operation specifies. -/
def Reg.known {w : Nat} (v : BitVec w) : Reg w := { val := v, defined := true }

/-- R24, U3: the result registers with the kind given and nothing else specified; `n` is the number of the first
free value drawn, and five are drawn. -/
def Results.fresh (n : Nat) (k : ResKind) : Results :=
  { kind := k, status := Reg.free 8 n, count := Reg.free 16 (n + 1), address := Reg.free 32 (n + 2),
    ptype := Reg.free 8 (n + 3), length := Reg.free 16 (n + 4) }

/-- R178: what an error writes into the result registers; the status byte only for a status error (R171). -/
def Results.ofError (n : Nat) : OpError → Results
  | .frame _ => Results.fresh n .frameError
  | .status s => { Results.fresh n .statusError with status := Reg.known s }

/-- R100: what a successful `ENC` writes: `RES_COUNT`, the bytes of the frame. -/
def Results.ofCount (n : Nat) (bytes : Nat) : Results :=
  { Results.fresh n .ok with count := Reg.known (BitVec.ofNat 16 bytes) }

/-- R103: what a successful `DEC` writes: `RES_ADDR`, `RES_TYPE`, `RES_LEN`. -/
def Results.ofPacket (n : Nat) (p : Packet) : Results :=
  { Results.fresh n .ok with
    address := Reg.known p.address, ptype := Reg.known p.ptype, length := Reg.known p.length }

end Sys2Proof.Machine
end

