-- ==== Sys2Proof/Machine/Ops.lean ====
section
/-! DEFINITION. The named operations over the buffer spaces, the registers and the sequencer: everything a meaning
does to the state, it does through these. -/

namespace Sys2Proof.Machine

open Sys2Proof

/-! ### Sparse storage: key and value pairs, keys strictly rising -/

/-- The value stored at a key. -/
def Assoc.get {α : Type} (k : Nat) : List (Nat × α) → Option α
  | [] => none
  | (j, v) :: rest => if j = k then some v else Assoc.get k rest

/-- Store a value at a key, keeping the keys in rising order. -/
def Assoc.set {α : Type} (k : Nat) (v : α) : List (Nat × α) → List (Nat × α)
  | [] => [(k, v)]
  | (j, w) :: rest =>
    if k < j then (k, v) :: (j, w) :: rest
    else if k = j then (k, v) :: rest
    else (j, w) :: Assoc.set k v rest

/-- The canonical order: keys strictly rising. -/
abbrev Assoc.Rising {α : Type} (l : List (Nat × α)) : Prop := l.Pairwise (fun a b => a.1 < b.1)

/-! ### Strings of `IN` -/

/-- What an unlisted string of `IN` reads as: nothing written (R35). A byte that nothing has written has no
value (notes/assumptions/9.md). -/
def InStr.unwritten : InStr := { len := none, cells := [] }

/-- The bytes at offsets `j` to `j + n - 1`, if each has been written. -/
def InStr.bytesFrom (cells : List Host.Cell) : Nat → Nat → Option Bytes
  | _, 0 => some []
  | j, n + 1 =>
    match Assoc.get j cells, InStr.bytesFrom cells (j + 1) n with
    | some b, some rest => some (b :: rest)
    | _, _ => none

/-- The whole string: its length and every byte of it written since reset (R35, R163, R165 (f)). One unwritten byte
below the length is enough for `none`, also where the operation's function would end before it reads that byte
(DESIGN CHOICE, unsafe: notes/assumptions/9.md). -/
def InStr.read (x : InStr) : Option Bytes :=
  match x.len with
  | none => none
  | some n => InStr.bytesFrom x.cells 0 n

/-- Write bytes at offsets `j`, `j + 1`, … -/
def InStr.writeCells (cells : List Host.Cell) : Nat → Bytes → List Host.Cell
  | _, [] => cells
  | j, b :: rest => InStr.writeCells (Assoc.set j b cells) (j + 1) rest

/-- A host's write of a whole string: its length and each of its bytes. -/
def InStr.put (x : InStr) (bytes : Bytes) : InStr :=
  { len := some bytes.length, cells := InStr.writeCells x.cells 0 bytes }

/-! ### The buffer spaces -/

/-- The storage of string `i` of `IN`. -/
def Memory.str (m : Memory) (i : Nat) : InStr := (Assoc.get i m.inStrs).getD InStr.unwritten

/-- Replace the storage of string `i` of `IN`. -/
def Memory.setStr (m : Memory) (i : Nat) (x : InStr) : Memory :=
  { m with inStrs := Assoc.set i x m.inStrs }

/-- Write `IN_LEN[i]` (R28). -/
def Memory.setLen (m : Memory) (i n : Nat) : Memory := m.setStr i { m.str i with len := some n }

/-- R52 `MemWrite(IN, i, j, v)`, the host's. -/
def Memory.setByte (m : Memory) (i j : Nat) (v : Byte) : Memory :=
  m.setStr i { m.str i with cells := Assoc.set j v (m.str i).cells }

/-- One more string of `IN`: its bytes and its length at index `IN_COUNT`, and the count goes up by one. -/
def Memory.append (m : Memory) (bytes : Bytes) : Memory :=
  { inCount := m.inCount + 1
    inStrs := Assoc.set m.inCount ((m.str m.inCount).put bytes) m.inStrs
    out := m.out }

/-- The canonical form of the storage of `IN`: indices and offsets strictly rising, and no listed string of which
nothing has been written. -/
abbrev Memory.wf (m : Memory) : Prop :=
  Assoc.Rising m.inStrs ∧
  ∀ p ∈ m.inStrs, Assoc.Rising p.2.cells ∧ (p.2.len ≠ none ∨ p.2.cells ≠ [])

/-- R52 `MemRead(IN, i, j)`: defined only below the count and the length, and for a written byte. -/
def Memory.inByte (m : Memory) (i j : Nat) : Option Byte :=
  if i < m.inCount then
    match (m.str i).len with
    | none => none
    | some n => if j < n then Assoc.get j (m.str i).cells else none
  else none

/-- `IN_LEN[i]`, for a string below the count. -/
def Memory.inLen (m : Memory) (i : Nat) : Option Nat :=
  if i < m.inCount then (m.str i).len else none

/-- R52 `MemRead(OUT, k, j)`. -/
def Memory.outByte (m : Memory) (k j : Nat) : Option Byte :=
  match m.out[k]? with
  | none => none
  | some x => x[j]?

/-- String `i` of `IN` as an operand: `none` when it lies at or beyond `IN_COUNT` (R165 (e)) or is not wholly
written (R165 (f)). So `DEC` of fewer than 11 bytes and `ENC` of more than `CAP` bytes are refused, not ended in a
frame error, when one of the bytes is unwritten (DESIGN CHOICE, unsafe: notes/assumptions/9.md). -/
def Memory.operand (m : Memory) (i : Nat) : Option Bytes :=
  if i < m.inCount then (m.str i).read else none

/-- Strings `i` to `i + n - 1` of `IN`, if each is wholly written. -/
def Memory.stringsFrom (m : Memory) : Nat → Nat → Option (List Bytes)
  | _, 0 => some []
  | i, n + 1 =>
    match (m.str i).read, Memory.stringsFrom m (i + 1) n with
    | some x, some rest => some (x :: rest)
    | _, _ => none

/-- R58, R163: the whole of `IN`, which `DRX` samples. -/
def Memory.operands (m : Memory) : Option (List Bytes) := m.stringsFrom 0 m.inCount

/-! ### Bounds and capacity -/

/-- R84: `CAP = 32 << CAPSEL`. -/
def capOf (sel : BitVec 2) : Nat := 32 <<< sel.toNat

/-- The session's payload capacity (R22). -/
def State.cap (s : State) : Nat := capOf s.cfg.capsel

/-- A count against a bound that may be absent (R7). -/
def fits (bound : Option Nat) (n : Nat) : Bool :=
  match bound with
  | none => true
  | some b => decide (n ≤ b)

/-- R59, R165 (g): `count` strings of at most `bytes` bytes each fit a buffer space. -/
def State.roomFor (s : State) (count bytes : Nat) : Bool :=
  fits s.params.maxFrames count && fits s.params.maxData bytes

/-! ### The sequencer -/

/-- R164: completion, one step: `RES_*` and `OUT` are written and the sequencer goes back to `IDLE`. The result
registers given draw five free values. -/
def State.deliver (s : State) (r : Results) (out : List Bytes) : State :=
  { s with seq := .idle, run := none, res := r, mem := { s.mem with out := out }, draws := s.draws + 5 }

/-- R178: THE BLOCK'S EXCEPTION ENTRY: an error is delivered by the same one step as a success. `RES_KIND` (and
`RES_STATUS` for a status error) is written, `OUT` becomes what the caller says (empty, but for a failed `ENC`),
the sequencer is `IDLE`. Nothing is saved and there is nothing to return from (R180). -/
def State.deliverError (s : State) (e : OpError) (out : List Bytes) : State :=
  s.deliver (Results.ofError s.draws e) out

/-- Completion of an operation that leaves one string in `OUT`, or an error and an empty `OUT` (R120, R124,
R146, R178). -/
def State.deliverString (s : State) : Except OpError Bytes → State
  | .ok x => s.deliver (Results.fresh s.draws .ok) [x]
  | .error e => s.deliverError e []

/-- R160: a session is opened. -/
def State.openSession (s : State) (c : Session) : State := { s with cfg := c, seq := .idle }

/-- R163: issue: the operands are sampled and the sequencer is `BUSY`. -/
def State.start (s : State) (r : Running) : State := { s with seq := .busy, run := some r }

/-- The running operation makes a pass and is still running. -/
def State.keepRunning (s : State) (r : Running) : State := { s with run := some r }

/-- R162, R190, R33: every piece of the block's state takes its reset value; a running operation is abandoned.
The parameters never change (R7), and the model's own fields are the host's, not the block's. -/
def State.resetBlock (s : State) : State :=
  { State.reset with params := s.params, host := s.host, readData := s.readData, draws := s.draws }

/-! ### What the host does to the registers and to `IN` -/

/-- Replace the operand registers (R23). -/
def State.withArgs (s : State) (a : Args) : State := { s with args := a }

/-- Replace the buffer spaces. -/
def State.withMem (s : State) (m : Memory) : State := { s with mem := m }

/-- Replace the host's pending actions. -/
def State.withHost (s : State) (h : List HostAct) : State := { s with host := h }

/-- A host read that returns a specified value. -/
def State.answer (s : State) (v : Nat) : State := { s with readData := v }

/-- A host read that returns an unspecified value of `w` bits: a fresh draw (U3, U4, U9, U11). -/
def State.answerFree (s : State) (w : Nat) : State :=
  { s with readData := ((Config.freeWord s.draws).setWidth w).toNat, draws := s.draws + 1 }

/-- A host read that returns an unspecified value with no width: a count, a length, `RESET` or a reserved index. -/
def State.answerFreeCount (s : State) : State :=
  { s with readData := Config.freeCount s.draws, draws := s.draws + 1 }

/-- The block is not `BUSY`, so host writes of `ARG_*` and `IN` are performed (R34). -/
def State.hostMayWrite (s : State) : Bool := s.seq != .busy

/-- R205 (carry), R50: a byte string is handed over into `IN` as the string after those already there. It is
dropped while `BUSY` (R34) and when the bounds of R28 leave no room (notes/assumptions/10.md). -/
def State.present (s : State) (bytes : Bytes) : State :=
  if s.hostMayWrite && s.roomFor (s.mem.inCount + 1) bytes.length then
    s.withMem (s.mem.append bytes)
  else s

end Sys2Proof.Machine
end

