-- ==== Sys2Proof/Machine/Operands.lean ====
section
/-! DEFINITION. What each operation reads when it is issued, and when the issue is refused (spec/44_system_ops.md
R163, R165; spec/10_state.md R23, R35; spec/20_memory.md R58, R59). `none` is a refusal. -/

namespace Sys2Proof.Machine

open Sys2Proof

/-- R35: a register's value, if it has been written since reset. -/
def Reg.read {w : Nat} (r : Reg w) : Option (BitVec w) := if r.defined then some r.val else none

/-- R165 (a), (b), (g): the six operations are accepted in `IDLE` only, and only if the result fits. -/
def State.accepts (s : State) (count bytes : Nat) : Bool :=
  decide (s.seq = .idle) && s.roomFor count bytes

/-- The operands of `CFG` (R160). -/
def cfgOperands (s : State) : Option Session :=
  if s.seq = .unconf then
    match s.args.address.read, s.args.chunk.read, s.args.capsel.read with
    | some a, some c, some k => if c = 0 then none else some { address := a, chunk := c, capsel := k }
    | _, _, _ => none
  else none

/-- The operands of `ENC` (R100): packet address, packet type, payload, destination capacity. -/
structure EncOperands where
  address : BitVec 32
  ptype   : Byte
  payload : Bytes
  outcap  : BitVec 16
  deriving DecidableEq, Repr

/-- What `ENC` samples. Its result is at most one frame of `11 + CAP` bytes (R59). -/
def encOperands (s : State) : Option EncOperands :=
  if s.accepts 1 (11 + s.cap) then
    match s.args.address.read, s.args.ptype.read, s.args.outcap.read, s.mem.operand 0 with
    | some a, some t, some o, some p => some { address := a, ptype := t, payload := p, outcap := o }
    | _, _, _, _ => none
  else none

/-- The operands of `DEC` (R103): candidate frame, expected address. -/
structure DecOperands where
  buffer   : Bytes
  expected : BitVec 32
  deriving DecidableEq, Repr

/-- What `DEC` samples. Its result is at most one payload of `CAP` bytes (R59). -/
def decOperands (s : State) : Option DecOperands :=
  if s.accepts 1 s.cap then
    match s.args.address.read, s.mem.operand 0 with
    | some a, some b => some { buffer := b, expected := a }
    | _, _ => none
  else none

/-- The operands of `CMD` (R120): command code, parameters. -/
structure CmdOperands where
  code   : Byte
  params : Bytes
  deriving DecidableEq, Repr

/-- What `CMD` samples. -/
def cmdOperands (s : State) : Option CmdOperands :=
  if s.accepts 1 (11 + s.cap) then
    match s.args.code.read, s.mem.operand 0 with
    | some c, some p => some { code := c, params := p }
    | _, _ => none
  else none

/-- What `ACK` samples (R124): the received bytes. -/
def ackOperands (s : State) : Option Bytes :=
  if s.accepts 1 s.cap then s.mem.operand 0 else none

/-- R141: the size of a chunk, the most bytes of data one frame of the session carries. -/
def State.chunkMax (s : State) : Nat := min s.cfg.chunk.toNat s.cap

/-- R59, R141: `ceil(n / w)`. -/
def ceilDiv (n w : Nat) : Nat := (n + w - 1) / w

/-- What `DTX` samples (R140): the data. Its result is `ceil(n / min(CHUNK_LEN, CAP))` frames of at most
`11 + CAP` bytes (R59). -/
def dtxOperands (s : State) : Option Bytes :=
  match s.mem.operand 0 with
  | none => none
  | some data =>
    if s.accepts (ceilDiv data.length s.chunkMax) (11 + s.cap) then some data else none

/-- What `DRX` samples (R146): every string of `IN`. Its result is at most `IN_COUNT * CAP` bytes (R59, R151). -/
def drxOperands (s : State) : Option (List Bytes) :=
  if s.accepts 1 (s.mem.inCount * s.cap) then s.mem.operands else none

end Sys2Proof.Machine
end

