-- ==== Sys2Proof/Machine/Codec.lean ====
section
/-! DEFINITION. The checksum-16 unit (spec/40_checksum.md) and the packet codec, `ENC` and `DEC`
(spec/41_codec.md). -/

namespace Sys2Proof.Machine

open Sys2Proof

/-! ### The checksum -/

/-- The sum of the bytes of a string, each an unsigned number. -/
def byteSum : Bytes → Nat
  | [] => 0
  | b :: rest => b.toNat + byteSum rest

/-- R90: `CSUM16(t, L, p)`. The arithmetic is the spec's own decision D1. -/
def csum16 (ptype : Byte) (length : BitVec 16) (payload : Bytes) : BitVec 16 :=
  BitVec.ofNat 16 (byteSum ([ptype] ++ be16 length ++ payload))

/-! ### The pure functions -/

/-- The frame of a packet (R70, R101): header, payload, checksum. -/
def frameOf (address : BitVec 32) (ptype : Byte) (payload : Bytes) : Bytes :=
  let length := BitVec.ofNat 16 (payload.length + 2)
  frameHeader address ptype length ++ payload ++ be16 (csum16 ptype length payload)

/-- R101: `ENC(address, type, payload, outcap, CAP)`. -/
def encodePacket (address : BitVec 32) (ptype : Byte) (payload : Bytes) (outcap cap : Nat) :
    Except OpError Bytes :=
  if cap < payload.length then .error (.frame .space)
  else if outcap < 9 + payload.length + 2 then .error (.frame .space)
  else .ok (frameOf address ptype payload)

/-- R104: `DEC(buf, expected, CAP)`, its checks in the rule's order. `length` is compared as a natural number, so
`9 + L` cannot wrap (R109). -/
def decodePacket (buf : Bytes) (expected : BitVec 32) (cap : Nat) : Except OpError Packet :=
  if buf.length < 11 then .error (.frame .short)
  else if byteAt buf 0 ≠ startHi ∨ byteAt buf 1 ≠ startLo then .error (.frame .start)
  else if be32At buf 2 ≠ expected then .error (.frame .addr)
  else if (be16At buf 7).toNat < 2 then .error (.frame .len)
  else if cap < (be16At buf 7).toNat - 2 then .error (.frame .len)
  else if 9 + (be16At buf 7).toNat ≠ buf.length then .error (.frame .len)
  else if csum16 (byteAt buf 6) (be16At buf 7) (slice buf 9 ((be16At buf 7).toNat - 2)) ≠
      be16At buf (7 + (be16At buf 7).toNat) then .error (.frame .csum)
  else .ok { address := expected, ptype := byteAt buf 6, length := be16At buf 7,
             payload := slice buf 9 ((be16At buf 7).toNat - 2) }

/-! ### Completion -/

/-- R100: what `ENC` writes when it ends. A failed `ENC` leaves `OUT` as it was. -/
def State.deliverEnc (s : State) : Except OpError Bytes → State
  | .ok frame => s.deliver (Results.ofCount s.draws frame.length) [frame]
  | .error e => s.deliverError e s.mem.out

/-- R103: what `DEC` writes when it ends. -/
def State.deliverDec (s : State) : Except OpError Packet → State
  | .ok p => s.deliver (Results.ofPacket s.draws p) [p.payload]
  | .error e => s.deliverError e []

/-! ### The meanings -/

/-- `ENC` as one atomic step (R100, R101, R206). -/
def execEnc (s : State) : Host.Outcome State Fault Refusal :=
  match encOperands s with
  | none => .next s
  | some x => .next (s.deliverEnc (encodePacket x.address x.ptype x.payload x.outcap.toNat s.cap))

/-- `DEC` as one atomic step (R103, R104, R206). -/
def execDec (s : State) : Host.Outcome State Fault Refusal :=
  match decOperands s with
  | none => .next s
  | some x => .next (s.deliverDec (decodePacket x.buffer x.expected s.cap))

end Sys2Proof.Machine
end

