-- ==== Sys2Proof/Machine/CommandAck.lean ====
section
/-! DEFINITION. Command and acknowledge packets: `CMD` and `ACK` (spec/42_command_ack.md). -/

namespace Sys2Proof.Machine

open Sys2Proof

/-- R121: the payload of a command: the code, then the parameters cut to `CAP - 1` bytes without a report. -/
def commandPayload (code : Byte) (params : Bytes) (cap : Nat) : Bytes :=
  code :: params.take (min params.length (cap - 1))

/-- R121: `CMD(code, params, ADDR, CAP, STAGE_SIZE)`. -/
def buildCommand (code : Byte) (params : Bytes) (address : BitVec 32) (cap stageSize : Nat) :
    Except OpError Bytes :=
  encodePacket address typeCommand (commandPayload code params cap) stageSize cap

/-- R125 steps 2 to 5, for a decoded packet. -/
def classifyAck (successSet : List Byte) (p : Packet) : Except OpError Bytes :=
  if p.ptype ≠ typeAck then .error (.frame .ptype)
  else
    match p.payload with
    | [] => .error (.frame .empty)
    | status :: rest => if status ∈ successSet then .ok rest else .error (.status status)

/-- R125: `ACK(bytes, ADDR, CAP, SUCCESS_SET)`. -/
def parseAck (bytes : Bytes) (address : BitVec 32) (cap : Nat) (successSet : List Byte) :
    Except OpError Bytes :=
  match decodePacket bytes address cap with
  | .error e => .error e
  | .ok p => classifyAck successSet p

/-- `CMD` as one atomic step (R120, R121, R206). -/
def execCmd (s : State) : Host.Outcome State Fault Refusal :=
  match cmdOperands s with
  | none => .next s
  | some x => .next (s.deliverString (buildCommand x.code x.params s.cfg.address s.cap s.params.stageSize))

/-- `ACK` as one atomic step (R124, R125, R206). -/
def execAck (s : State) : Host.Outcome State Fault Refusal :=
  match ackOperands s with
  | none => .next s
  | some bytes => .next (s.deliverString (parseAck bytes s.cfg.address s.cap s.params.successSet))

end Sys2Proof.Machine
end

