-- ==== Sys2Proof/Machine/Transfer.lean ====
section
/-! DEFINITION. Multi-frame data transfer: `DTX` and `DRX` (spec/43_data_transfer.md). -/

namespace Sys2Proof.Machine

open Sys2Proof

/-- What `DTX` reads of the session and the parameters. -/
structure LinkConfig where
  address   : BitVec 32
  cap       : Nat
  chunk     : Nat
  stageSize : Nat
  deriving DecidableEq, Repr

/-- The session as `DTX` sees it. -/
def State.link (s : State) : LinkConfig :=
  { address := s.cfg.address, cap := s.cap, chunk := s.cfg.chunk.toNat, stageSize := s.params.stageSize }

/-- R141: the bytes of the next chunk, `off` bytes of `n` already framed. -/
def chunkSize (k : LinkConfig) (n off : Nat) : Nat := min (min k.chunk (n - off)) k.cap

/-- R142: the type of the chunk that starts at `off`. -/
def chunkType (k : LinkConfig) (n off : Nat) : Byte :=
  if off + chunkSize k n off = n then typeEndData else typeData

/-- R142: one pass of the loop: the chunk at `off`, encoded into `STAGE`. -/
def encodeChunk (k : LinkConfig) (data : Bytes) (off : Nat) : Except OpError Bytes :=
  encodePacket k.address (chunkType k data.length off) (slice data off (chunkSize k data.length off))
    k.stageSize k.cap

/-- R142: a chunk whose encode fails is left out of the result, without a report. -/
def keptFrame : Except OpError Bytes → List Bytes
  | .ok f => [f]
  | .error _ => []

/-- R142: the loop from `off`; `fuel` bounds the passes, and as many as there are bytes left are enough, since a
pass advances by at least one (R141). -/
def framesFrom (k : LinkConfig) (data : Bytes) : Nat → Nat → List Bytes
  | 0, _ => []
  | fuel + 1, off =>
    if off < data.length then
      keptFrame (encodeChunk k data off) ++ framesFrom k data fuel (off + chunkSize k data.length off)
    else []

/-- R142: `DTX(data, ADDR, CAP, CHUNK_LEN, STAGE_SIZE)`. -/
def splitData (k : LinkConfig) (data : Bytes) : List Bytes := framesFrom k data data.length 0

/-- What one frame does to the receiver (R147): it fails, or gives its payload and whether it ends the stream. -/
def receiveFrame (address : BitVec 32) (cap : Nat) (frame : Bytes) : Except OpError (Bytes × Bool) :=
  match decodePacket frame address cap with
  | .error e => .error e
  | .ok p =>
    if p.ptype ≠ typeData ∧ p.ptype ≠ typeEndData then .error (.frame .ptype)
    else .ok (p.payload, decide (p.ptype = typeEndData))

/-- R147: the loop, with the accumulator so far. -/
def reassembleFrom (address : BitVec 32) (cap : Nat) : List Bytes → Bytes → Except OpError Bytes
  | [], acc => .ok acc
  | frame :: rest, acc =>
    match receiveFrame address cap frame with
    | .error e => .error e
    | .ok (payload, true) => .ok (acc ++ payload)
    | .ok (payload, false) => reassembleFrom address cap rest (acc ++ payload)

/-- R147: `DRX(frames, ADDR, CAP)`. -/
def reassemble (frames : List Bytes) (address : BitVec 32) (cap : Nat) : Except OpError Bytes :=
  reassembleFrom address cap frames []

/-- R140: what `DTX` writes when it ends; it has no error result. -/
def State.deliverFrames (s : State) (frames : List Bytes) : State :=
  s.deliver (Results.fresh s.draws .ok) frames

/-- `DTX` as one atomic step (R140, R142, R206). With data and a chunk length of 0 it never ends (U6). -/
def execDtx (s : State) : Host.Outcome State Fault Refusal :=
  match dtxOperands s with
  | none => .next s
  | some data =>
    if data ≠ [] ∧ s.cfg.chunk = 0 then .fault .dtxNoProgress
    else .next (s.deliverFrames (splitData s.link data))

/-- `DRX` as one atomic step (R146, R147, R206). -/
def execDrx (s : State) : Host.Outcome State Fault Refusal :=
  match drxOperands s with
  | none => .next s
  | some frames => .next (s.deliverString (reassemble frames s.cfg.address s.cap))

end Sys2Proof.Machine
end

