-- ==== Sys2Proof/Machine/System.lean ====
section
/-! DEFINITION. `CFG` (spec/44_system_ops.md R160, R161) and the four frame headers (spec/30_encoding.md R73). -/

namespace Sys2Proof.Machine

open Sys2Proof

/-- `CFG` (R160, R161). It completes at once and never enters `BUSY`. -/
def execCfg (s : State) : Host.Outcome State Fault Refusal :=
  match cfgOperands s with
  | none => .next s
  | some c => .next (s.openSession c)

/-- A frame with a command header (R73: the device receives it, and no handler operation accepts it). The block
executes no header: the frame becomes the content of a string of `IN` (R50, R205), where `DEC` returns its packet
and `ACK` and `DRX` reject it (DESIGN CHOICE, unsafe: notes/assumptions/6.md). -/
def execTCommand (address : BitVec 32) (length : BitVec 16) (body : Bytes) (s : State) :
    Host.Outcome State Fault Refusal :=
  .next (s.present (frameHeader address typeCommand length ++ body))

/-- A frame with a data header (R73: `DRX` accepts it). It becomes the content of a string of `IN` (R50, R205). -/
def execTData (address : BitVec 32) (length : BitVec 16) (body : Bytes) (s : State) :
    Host.Outcome State Fault Refusal :=
  .next (s.present (frameHeader address typeData length ++ body))

/-- A frame with an acknowledge header (R73: `ACK` accepts it). It becomes the content of a string of `IN`
(R50, R205). -/
def execTAck (address : BitVec 32) (length : BitVec 16) (body : Bytes) (s : State) :
    Host.Outcome State Fault Refusal :=
  .next (s.present (frameHeader address typeAck length ++ body))

/-- A frame with an end_data header (R73: `DRX` accepts it, and it ends the stream). It becomes the content of a
string of `IN` (R50, R205). -/
def execTEndData (address : BitVec 32) (length : BitVec 16) (body : Bytes) (s : State) :
    Host.Outcome State Fault Refusal :=
  .next (s.present (frameHeader address typeEndData length ++ body))

end Sys2Proof.Machine
end

