-- ==== Sys2Proof/Machine/Dispatch.lean ====
section
/-! DEFINITION. One arm per constructor of `Instr`. -/

namespace Sys2Proof.Machine

open Sys2Proof

def exec (i : Instr) (s : State) : Host.Outcome State Fault Refusal :=
  match i with
  -- the seven op words (spec/30_encoding.md R82)
  | .cfg => Sys2Proof.Machine.execCfg s
  | .enc => Sys2Proof.Machine.execEnc s
  | .dec => Sys2Proof.Machine.execDec s
  | .cmd => Sys2Proof.Machine.execCmd s
  | .ack => Sys2Proof.Machine.execAck s
  | .dtx => Sys2Proof.Machine.execDtx s
  | .drx => Sys2Proof.Machine.execDrx s
  -- the four frame headers (spec/30_encoding.md R73)
  | .tCommand address length body => Sys2Proof.Machine.execTCommand address length body s
  | .tData address length body => Sys2Proof.Machine.execTData address length body s
  | .tAck address length body => Sys2Proof.Machine.execTAck address length body s
  | .tEndData address length body => Sys2Proof.Machine.execTEndData address length body s

end Sys2Proof.Machine
end

