-- ==== Sys2Proof/Machine/Sequencer.lean ====
section
/-! DEFINITION. The sequencer pass by pass: a raw write of `OP` (spec/44_system_ops.md R163), what runs while
`STATE = BUSY` (spec/10_state.md R26, R27, R30) and completion (R164). `exec` is the same operation as one atomic
step (spec/70_reset_and_hazards.md R206). How many passes an operation takes is the model's (R204 gives no
number; notes/assumptions/5.md). -/

namespace Sys2Proof.Machine

open Sys2Proof

/-! ### Issue -/

/-- R163: what the block samples when an op word is written and accepted, with every cursor at its initial value
(R27). A frame header is no op word and issues nothing. -/
def sampled (i : Instr) (s : State) : Option Running :=
  match i with
  | .enc => (encOperands s).map (fun x => .enc x.address x.ptype x.payload x.outcap)
  | .dec => (decOperands s).map (fun x => .dec x.buffer x.expected)
  | .cmd => (cmdOperands s).map (fun x => .cmd x.code x.params none)
  | .ack => (ackOperands s).map (fun bytes => .ack bytes)
  | .dtx => (dtxOperands s).map (fun data => .dtx data 0 .idle [] [])
  | .drx => (drxOperands s).map (fun frames => .drx frames 0 .collecting [])
  | .cfg | .tCommand _ _ _ | .tData _ _ _ | .tAck _ _ _ | .tEndData _ _ _ => none

/-- R163, R165: an accepted operation makes the sequencer `BUSY`; a refused one changes nothing. -/
def issueSampled (i : Instr) (s : State) : State :=
  match sampled i s with
  | none => s
  | some r => s.start r

/-- A write of `OP` that does not wait. `CFG` takes effect at once (R160). -/
def issue (i : Instr) (s : State) : Host.Outcome State Fault Refusal :=
  match i with
  | .cfg => execCfg s
  | .enc => .next (issueSampled .enc s)
  | .dec => .next (issueSampled .dec s)
  | .cmd => .next (issueSampled .cmd s)
  | .ack => .next (issueSampled .ack s)
  | .dtx => .next (issueSampled .dtx s)
  | .drx => .next (issueSampled .drx s)
  | .tCommand _ _ _ => .next s
  | .tData _ _ _ => .next s
  | .tAck _ _ _ => .next s
  | .tEndData _ _ _ => .next s

/-! ### The passes of a running operation -/

/-- R143: the phase the sender is in with `off` bytes framed. -/
def senderPhase (k : LinkConfig) (n off : Nat) : SenderPhase :=
  if off < n then (if off + chunkSize k n off = n then .emittingEndData else .emittingData) else .done

/-- R30, R142: `STAGE` after an encode: the new frame, or, when it does not fit, what it held. -/
def stageAfter (old : Bytes) : Except OpError Bytes → Bytes
  | .ok f => f
  | .error _ => old

/-- R142, R143: one emitting pass of `DTX`. A chunk of no bytes makes no progress (U6). -/
def emitChunk (data : Bytes) (off : Nat) (stage : Bytes) (frames : List Bytes) (s : State) :
    Host.Outcome State Fault Refusal :=
  if chunkSize s.link data.length off = 0 then .fault .dtxNoProgress
  else
    .next (s.keepRunning
      (.dtx data (off + chunkSize s.link data.length off)
        (senderPhase s.link data.length (off + chunkSize s.link data.length off))
        (stageAfter stage (encodeChunk s.link data off))
        (frames ++ keptFrame (encodeChunk s.link data off))))

/-- R147, R148: one collecting pass of `DRX`. -/
def collectFrame (frames : List Bytes) (i : Nat) (acc : Bytes) (s : State) : State :=
  match frames[i]? with
  | none => s.keepRunning (.drx frames i .complete acc)
  | some frame =>
    match receiveFrame s.cfg.address s.cap frame with
    | .error e => s.keepRunning (.drx frames i (.failed e) acc)
    | .ok (payload, true) => s.keepRunning (.drx frames (i + 1) .complete (acc ++ payload))
    | .ok (payload, false) => s.keepRunning (.drx frames (i + 1) .collecting (acc ++ payload))

/-- One pass of the running operation: it moves on, or it has its result and completes (R164). -/
def advance (r : Running) (s : State) : Host.Outcome State Fault Refusal :=
  match r with
  | .enc address ptype payload outcap =>
    .next (s.deliverEnc (encodePacket address ptype payload outcap.toNat s.cap))
  | .dec buffer expected => .next (s.deliverDec (decodePacket buffer expected s.cap))
  | .cmd code params none =>
    match buildCommand code params s.cfg.address s.cap s.params.stageSize with
    | .ok frame => .next (s.keepRunning (.cmd code params (some frame)))
    | .error e => .next (s.deliverString (.error e))
  | .cmd _ _ (some frame) => .next (s.deliverString (.ok frame))
  | .ack bytes => .next (s.deliverString (parseAck bytes s.cfg.address s.cap s.params.successSet))
  | .dtx data off .idle stage frames =>
    .next (s.keepRunning (.dtx data off (senderPhase s.link data.length off) stage frames))
  | .dtx data off .emittingData stage frames => emitChunk data off stage frames s
  | .dtx data off .emittingEndData stage frames => emitChunk data off stage frames s
  | .dtx _ _ .done _ frames => .next (s.deliverFrames frames)
  | .drx frames i .collecting acc => .next (collectFrame frames i acc s)
  | .drx _ _ .complete acc => .next (s.deliverString (.ok acc))
  | .drx _ _ (.failed e) _ => .next (s.deliverString (.error e))

/-- What the block does when the host does nothing: a pass of the running operation while `BUSY`, and otherwise
nothing at all (R191). -/
def tick (s : State) : Host.Outcome State Fault Refusal :=
  match s.seq, s.run with
  | .busy, some r => advance r s
  | _, _ => .next s

end Sys2Proof.Machine
end

