-- ==== Sys2Proof/Machine/HostPort.lean ====
section
/-! DEFINITION. What each host action does: the register map (spec/10_state.md R25), the access rules by sequencer
state (R34), the buffer spaces (R28, R29), the operation lines (spec/30_encoding.md R86) and the transport
(spec/70_reset_and_hazards.md R205). -/

namespace Sys2Proof.Machine

open Sys2Proof

/-! ### The register map -/

/-- R25: the registers by name. -/
inductive RegName where
  | state | op | cfgAddr | cfgChunk | cfgCapsel
  | argAddr | argType | argCode | argChunk | argCapsel | argOutcap
  | resKind | resStatus | resCount | resAddr | resType | resLen
  | inCount | outCount | reset
  deriving DecidableEq, Repr

/-- R25: the register at an index; every index not listed is reserved. -/
def regAt : Nat → Option RegName
  | 0x00 => some .state
  | 0x01 => some .op
  | 0x02 => some .cfgAddr
  | 0x03 => some .cfgChunk
  | 0x04 => some .cfgCapsel
  | 0x08 => some .argAddr
  | 0x09 => some .argType
  | 0x0A => some .argCode
  | 0x0B => some .argChunk
  | 0x0C => some .argCapsel
  | 0x0D => some .argOutcap
  | 0x10 => some .resKind
  | 0x11 => some .resStatus
  | 0x12 => some .resCount
  | 0x13 => some .resAddr
  | 0x14 => some .resType
  | 0x15 => some .resLen
  | 0x18 => some .inCount
  | 0x19 => some .outCount
  | 0x1A => some .reset
  | _ => none

/-- The bits of a register (R22 to R26, R81); `none` for the two counts, which have no width of their own, and for
`RESET`, which holds nothing. -/
def RegName.width : RegName → Option Nat
  | .state => some 2
  | .op => some 8
  | .cfgAddr => some 32
  | .cfgChunk => some 16
  | .cfgCapsel => some 2
  | .argAddr => some 32
  | .argType => some 8
  | .argCode => some 8
  | .argChunk => some 16
  | .argCapsel => some 2
  | .argOutcap => some 16
  | .resKind => some 2
  | .resStatus => some 8
  | .resCount => some 16
  | .resAddr => some 32
  | .resType => some 8
  | .resLen => some 16
  | .inCount => none
  | .outCount => none
  | .reset => none

/-! ### Reads -/

/-- A register's value as the bus sees it: the bits above the field read as 0 (R22). -/
def Reg.onBus {w : Nat} (r : Reg w) : Option Nat := if r.defined then some r.val.toNat else none

/-- R34: what a host read of a register returns; `none` is an unspecified value. `CFG_*` has no value before a
session (U9), `ARG_*`, `RES_*` and the counts have none while `BUSY` (U4), and the write-only registers have none
at all. -/
def readValue (r : RegName) (s : State) : Option Nat :=
  match r with
  | .state => some s.seq.code.toNat
  | .op => none
  | .reset => none
  | .cfgAddr => if s.seq = .unconf then none else some s.cfg.address.toNat
  | .cfgChunk => if s.seq = .unconf then none else some s.cfg.chunk.toNat
  | .cfgCapsel => if s.seq = .unconf then none else some s.cfg.capsel.toNat
  | .argAddr => if s.seq = .busy then none else s.args.address.onBus
  | .argType => if s.seq = .busy then none else s.args.ptype.onBus
  | .argCode => if s.seq = .busy then none else s.args.code.onBus
  | .argChunk => if s.seq = .busy then none else s.args.chunk.onBus
  | .argCapsel => if s.seq = .busy then none else s.args.capsel.onBus
  | .argOutcap => if s.seq = .busy then none else s.args.outcap.onBus
  | .resKind => if s.seq = .busy then none else some s.res.kind.code.toNat
  | .resStatus => if s.seq = .busy then none else s.res.status.onBus
  | .resCount => if s.seq = .busy then none else s.res.count.onBus
  | .resAddr => if s.seq = .busy then none else s.res.address.onBus
  | .resType => if s.seq = .busy then none else s.res.ptype.onBus
  | .resLen => if s.seq = .busy then none else s.res.length.onBus
  | .inCount => if s.seq = .busy then none else some s.mem.inCount
  | .outCount => if s.seq = .busy then none else some s.mem.out.length

/-- The end of a host read of a field of `w` bits (`none`: a count or a length). -/
def State.answerOr (s : State) (w : Option Nat) (v : Option Nat) : State :=
  match v, w with
  | some x, _ => s.answer x
  | none, some w => s.answerFree w
  | none, none => s.answerFreeCount

/-- A host read of a register index; a reserved index reads as an unspecified value (R25, U11). R25 gives neither a
width to that value nor a width to the bus, so it is any natural number (DESIGN CHOICE, safe:
notes/assumptions/12.md). -/
def readRegister (index : Nat) (s : State) : State :=
  match regAt index with
  | none => s.answerFreeCount
  | some r => s.answerOr r.width (readValue r s)

/-- A host read of a byte of `IN` or of a length of it returns a value only when the block is not `BUSY` (R34). -/
def State.whenNotBusy {α : Type} (s : State) (v : Option α) : Option α := if s.seq = .busy then none else v

/-! ### Writes -/

/-- R23, R34: a write of an operand register, dropped while `BUSY`; bits above the field do not exist (R22). -/
def writeArg (f : Args → Args) (s : State) : State :=
  if s.hostMayWrite then s.withArgs (f s.args) else s

/-- R28, R34: a write of `IN`, dropped while `BUSY` or when it is outside the bounds of R28
(notes/assumptions/10.md). -/
def writeBuffer (inBounds : Bool) (f : Memory → Memory) (s : State) : State :=
  if s.hostMayWrite && inBounds then s.withMem (f s.mem) else s

/-- R28: string index `i` exists within the bounds, that is below `MAX_FRAMES`. -/
def State.stringInBounds (s : State) (i : Nat) : Bool := fits s.params.maxFrames (i + 1)

/-- A write of an op word that does not wait (R163); a reserved word is refused with no effect (R166). -/
def issueWord (w : Byte) (s : State) : Host.Outcome State Fault Refusal :=
  match decodeOp w with
  | .error _ => .next s
  | .ok i => issue i s

/-- A host write of a register (R25, R34). The registers the host may only read, and reserved indices, ignore it
(R22, R24, R26, U11). -/
def writeNamed (r : RegName) (v : Nat) (s : State) : Host.Outcome State Fault Refusal :=
  match r with
  | .op => issueWord (BitVec.ofNat 8 v) s
  | .reset => .next s.resetBlock
  | .argAddr => .next (writeArg (fun a => { a with address := Reg.known (BitVec.ofNat 32 v) }) s)
  | .argType => .next (writeArg (fun a => { a with ptype := Reg.known (BitVec.ofNat 8 v) }) s)
  | .argCode => .next (writeArg (fun a => { a with code := Reg.known (BitVec.ofNat 8 v) }) s)
  | .argChunk => .next (writeArg (fun a => { a with chunk := Reg.known (BitVec.ofNat 16 v) }) s)
  | .argCapsel => .next (writeArg (fun a => { a with capsel := Reg.known (BitVec.ofNat 2 v) }) s)
  | .argOutcap => .next (writeArg (fun a => { a with outcap := Reg.known (BitVec.ofNat 16 v) }) s)
  | .inCount => .next (writeBuffer (fits s.params.maxFrames v) (fun m => { m with inCount := v }) s)
  | .state | .cfgAddr | .cfgChunk | .cfgCapsel | .resKind | .resStatus | .resCount | .resAddr | .resType
  | .resLen | .outCount => .next s

/-- A host write of a register index; a reserved index ignores it (R25). -/
def writeRegister (index v : Nat) (s : State) : Host.Outcome State Fault Refusal :=
  match regAt index with
  | none => .next s
  | some r => writeNamed r v s

/-! ### Operations and frames -/

/-- R86, R206: write the op word and wait for `IDLE`, as one step: the meaning of the instruction the word
decodes to. A reserved word is refused with no effect (R83, R166). -/
def operate (w : Byte) (s : State) : Host.Outcome State Fault Refusal :=
  match decodeOp w with
  | .error _ => .next s
  | .ok i => exec i s

/-- R205: the transport hands a byte string over. When it is one frame of a defined type it is the instruction its
header decodes to; any other bytes are handed over as they are (R198: the block does not search or cut). -/
def carryBytes (bytes : Bytes) (s : State) : Host.Outcome State Fault Refusal :=
  match decodeFrame bytes with
  | .error _ => .next (s.present bytes)
  | .ok i => exec i s

/-- R9: the host moves `OUT[k]` into `IN`. There is nothing to move while `BUSY` or at or beyond `OUT_COUNT`. -/
def relayString (k : Nat) (s : State) : State :=
  match s.mem.out[k]? with
  | none => s
  | some x => s.present x

/-! ### One host action -/

/-- What a host action does to the block. -/
def hostAction (a : HostAct) (s : State) : Host.Outcome State Fault Refusal :=
  match a with
  | .operate w => operate w s
  | .carry bytes => carryBytes bytes s
  | .relay k => .next (relayString k s)
  | .writeReg index v => writeRegister index v s
  | .readReg index => .next (readRegister index s)
  | .writeInLen i n =>
    .next (writeBuffer (s.stringInBounds i && fits s.params.maxData n) (fun m => m.setLen i n) s)
  | .writeIn i j v =>
    .next (writeBuffer (s.stringInBounds i && fits s.params.maxData (j + 1)) (fun m => m.setByte i j v) s)
  | .readInLen i => .next (s.answerOr none (s.whenNotBusy (s.mem.inLen i)))
  | .readIn i j => .next (s.answerOr (some 8) (s.whenNotBusy ((s.mem.inByte i j).map BitVec.toNat)))
  | .readOutLen k => .next (s.answerOr none (s.whenNotBusy ((s.mem.out[k]?).map List.length)))
  | .readOut k j => .next (s.answerOr (some 8) (s.whenNotBusy ((s.mem.outByte k j).map BitVec.toNat)))
  | .resetInput => .next s.resetBlock
  | .wait => tick s

/-- The next thing that happens: the host's oldest pending action, or, when it has none, a pass of the sequencer
(R60: the order is the order in which the host issues its actions). -/
def turn (s : State) : Host.Outcome State Fault Refusal :=
  match s.host with
  | [] => tick s
  | a :: rest => hostAction a (s.withHost rest)

/-- The host action that makes a row of the opcode table the next instruction: an op word is written to `OP`, a
frame is handed over. -/
def fetchAction (nbits w : Nat) : HostAct :=
  if nbits ≤ 8 then .operate (BitVec.ofNat 8 w) else .carry (tableFrame w)

end Sys2Proof.Machine
end

