-- ==== Sys2Proof/Machine/Step.lean ====
section
/-! DEFINITION. One step of the machine. -/

namespace Sys2Proof.Machine

open Sys2Proof

/-- One step: the host's oldest pending action, or a pass of the sequencer. -/
def step (s : State) : Host.Outcome State Fault Refusal := turn s

/-- The state with an instruction where `step` takes its next one: the host's next action. How a program comes to
run from reset: notes/assumptions/4.md. -/
def State.withFetchWord (s : State) (nbits w : Nat) : State := s.withHost (fetchAction nbits w :: s.host)

end Sys2Proof.Machine
end

