-- ==== Sys2Proof/Safety.lean ====
section
/-! DEFINITION. What counts as a safe run of the block, and the terms the claims are stated in: the invariant every
step keeps, what an operation leaves alone, and what a result register specifies. -/

namespace Sys2Proof.Machine

open Sys2Proof

/-! ### The invariant -/

/-- R27: the cursors of a running operation lie inside its input, and a sender that is emitting has data left. -/
def Running.cursorsIn : Running → Prop
  | .dtx data off phase _ _ =>
    off ≤ data.length ∧ ((phase = .emittingData ∨ phase = .emittingEndData) → off < data.length)
  | .drx frames i _ _ => i ≤ frames.length
  | .enc _ _ _ _ => True
  | .dec _ _ => True
  | .cmd _ _ _ => True
  | .ack _ => True

/-- R29: `OUT` is within `MAX_FRAMES` and `MAX_DATA`. -/
def State.outIn (s : State) : Bool :=
  fits s.params.maxFrames s.mem.out.length && s.mem.out.all (fun x => fits s.params.maxData x.length)

/-- R59, R165 (g): the result of a running operation fits `OUT`, with what it has staged and accumulated so far
counted in. -/
def Running.resultFits (s : State) : Running → Prop
  | .enc _ _ _ _ => s.roomFor 1 (11 + s.cap) = true
  | .dec _ _ => s.roomFor 1 s.cap = true
  | .cmd _ _ stage => s.roomFor 1 (11 + s.cap) = true ∧ ∀ f, stage = some f → f.length ≤ 11 + s.cap
  | .ack _ => s.roomFor 1 s.cap = true
  | .dtx data off _ _ frames =>
    s.roomFor (ceilDiv data.length s.chunkMax) (11 + s.cap) = true ∧
    frames.length + ceilDiv (data.length - off) s.chunkMax ≤ ceilDiv data.length s.chunkMax ∧
    ∀ f ∈ frames, f.length ≤ 11 + s.cap
  | .drx frames i _ acc => s.roomFor 1 (frames.length * s.cap) = true ∧ acc.length ≤ i * s.cap

/-- What holds in every state a run from reset reaches. -/
structure State.Inv (s : State) : Prop where
  /-- R7: the parameters have legal values. -/
  paramsLegal : s.params.legal = true
  /-- The storage of `IN` is in its canonical form. -/
  memWf : s.mem.wf
  /-- R28: `IN_COUNT ≤ MAX_FRAMES`. -/
  countIn : fits s.params.maxFrames s.mem.inCount = true
  /-- R28: every stored string of `IN` lies below `MAX_FRAMES`, `IN_LEN[i] ≤ MAX_DATA`, and every stored byte lies
  below `MAX_DATA`. -/
  stringsIn : ∀ p ∈ s.mem.inStrs,
    fits s.params.maxFrames (p.1 + 1) = true ∧ (∀ n, p.2.len = some n → fits s.params.maxData n = true) ∧
    ∀ q ∈ p.2.cells, fits s.params.maxData (q.1 + 1) = true
  /-- R29: `OUT_COUNT ≤ MAX_FRAMES` and `OUT_LEN[k] ≤ MAX_DATA`. -/
  outIn : s.outIn = true
  /-- R26, R27: an operation runs exactly while `STATE = BUSY`. -/
  busyRuns : s.seq = .busy ↔ s.run ≠ none
  /-- R22, R161 (b): a session has a chunk length of at least 1. -/
  chunkPos : s.seq ≠ .unconf → s.cfg.chunk ≠ 0
  /-- R27: the cursors are in range. -/
  cursors : ∀ r, s.run = some r → r.cursorsIn
  /-- R59, R165 (g): the result of the running operation fits. -/
  resultFits : ∀ r, s.run = some r → r.resultFits s
  /-- R24: `RES_STATUS` is specified only when `RES_KIND = STATUS_ERROR`. -/
  statusOnly : s.res.status.defined = true → s.res.kind = .statusError

/-! ### What moves the sequencer (R26, R190) -/

/-- R190: the host's next action resets the block, by the reset input or by a write of any value to `RESET`. -/
def State.ResetNext (s : State) : Prop :=
  s.host.head? = some .resetInput ∨ ∃ v, s.host.head? = some (.writeReg 0x1A v)

/-- R160: the host's next action writes the op word of `CFG`, waited for or not, and `CFG` is accepted with the
session `c`. The op word is the low 8 bits of the value written (notes/assumptions/11.md, DESIGN CHOICE). -/
def State.CfgNext (s : State) (c : Session) : Prop :=
  (s.host.head? = some (.operate 0x01) ∨
    ∃ v, s.host.head? = some (.writeReg 0x01 v) ∧ BitVec.ofNat 8 v = 0x01) ∧
  cfgOperands s = some c

/-- R163: the host's next action writes the op word of another operation, without waiting, and the operation is
accepted with the operands `r`. The op word is the low 8 bits of the value written (notes/assumptions/11.md, DESIGN
CHOICE). -/
def State.IssueNext (s : State) (r : Running) : Prop :=
  ∃ v i, s.host.head? = some (.writeReg 0x01 v) ∧ decodeOp (BitVec.ofNat 8 v) = .ok i ∧ sampled i s = some r

/-- The host does nothing, so the running operation makes a pass. -/
def State.PassNext (s : State) : Prop := s.host = [] ∨ s.host.head? = some .wait

/-! ### What an operation leaves alone -/

/-- The six operations that run (R163): every op word but `CFG`. -/
def isOperation : Instr → Bool
  | .enc | .dec | .cmd | .ack | .dtx | .drx => true
  | .cfg | .tCommand _ _ _ | .tData _ _ _ | .tAck _ _ _ | .tEndData _ _ _ => false

/-- R65: the session, the operand registers and every byte, length and the count of `IN` are as before; so are
the parameters and what belongs to the host. -/
structure KeepsInputs (s t : State) : Prop where
  params   : t.params = s.params
  cfg      : t.cfg = s.cfg
  args     : t.args = s.args
  inCount  : t.mem.inCount = s.mem.inCount
  inLen    : ∀ i, (t.mem.str i).len = (s.mem.str i).len
  inByte   : ∀ i j, Assoc.get j (t.mem.str i).cells = Assoc.get j (s.mem.str i).cells
  host     : t.host = s.host
  readData : t.readData = s.readData

/-- R24: only `RES_KIND` is specified. -/
structure Results.OnlyKind (r : Results) (k : ResKind) : Prop where
  kind    : r.kind = k
  status  : r.status.defined = false
  count   : r.count.defined = false
  address : r.address.defined = false
  ptype   : r.ptype.defined = false
  length  : r.length.defined = false

/-- R171, R124: only `RES_KIND = STATUS_ERROR` and `RES_STATUS` are specified. -/
structure Results.OnlyStatus (r : Results) (b : Byte) : Prop where
  kind    : r.kind = .statusError
  status  : r.status = Reg.known b
  count   : r.count.defined = false
  address : r.address.defined = false
  ptype   : r.ptype.defined = false
  length  : r.length.defined = false

/-- An operation has ended (R164): the sequencer is `IDLE`, nothing runs, and the inputs are as before. -/
structure Ended (s t : State) : Prop where
  idle  : t.seq = .idle
  run   : t.run = none
  keeps : KeepsInputs s t

/-- R178: an operation has ended in a frame error that empties `OUT`: nothing else is specified. -/
structure EndedInFrameError (s t : State) : Prop where
  ended : Ended s t
  res   : t.res.OnlyKind .frameError
  out   : t.mem.out = []

end Sys2Proof.Machine
end

