-- ==== Sys2Proof/Certificates/Slice0/Obligations.lean ====
section
/-! DEFINITION. The statements for the provers, each from the rules of spec/ its docstring names. A rule that rests
on a decision row D<n> of spec/92_eei_decisions.md is the spec's own choice, not its source's. -/

open Sys2Proof Sys2Proof.Machine

/-! ### Reset and start-up -/

/-- R33, R191 (decision D18): after reset `STATE`, `RES_KIND`, `IN_COUNT` and `OUT_COUNT` read as 0 and no other
register has a value; nothing is running and nothing of `IN` is written. -/
def Obligations.ResetReadsUnconfigured : Prop :=
  (∀ r : RegName, readValue r State.reset =
    if r = .state ∨ r = .resKind ∨ r = .inCount ∨ r = .outCount then some 0 else none) ∧
  State.reset.run = none ∧ (∀ i, State.reset.mem.str i = InStr.unwritten) ∧ State.reset.mem.out = []

/-- R162, R190 (decision D18): from any state, `BUSY` too, a write of any value to `RESET` and the reset input do
the same: every piece of the block's state takes its reset value, and a running operation is gone. The parameters
(R7) and the model's own fields stay (notes/assumptions/4.md). -/
def Obligations.ResetFromAnyState : Prop :=
  ∀ (s : State) (v : Nat), ∃ t,
    hostAction (.writeReg 0x1A v) s = .next t ∧ hostAction .resetInput s = .next t ∧
    t.seq = .unconf ∧ t.res.OnlyKind .ok ∧ t.run = none ∧
    t.mem.inCount = 0 ∧ t.mem.out = [] ∧ (∀ i, t.mem.str i = InStr.unwritten) ∧
    t.args.address.defined = false ∧ t.args.ptype.defined = false ∧ t.args.code.defined = false ∧
    t.args.chunk.defined = false ∧ t.args.capsel.defined = false ∧ t.args.outcap.defined = false ∧
    t.params = s.params ∧ t.host = s.host ∧ t.readData = s.readData ∧ t.draws = s.draws

/-- R191 (last sentence): with no host action pending and no operation running, a step changes nothing. -/
def Obligations.NothingHappensUntilTheHostActs : Prop :=
  ∀ s : State, s.host = [] → s.seq ≠ .busy → step s = .next s

/-! ### Whole-machine rules -/

/-- The invariant holds at reset. -/
def Obligations.ResetMeetsTheInvariant : Prop := State.reset.Inv

/-- R7, R22, R24, R26 to R29, R59: every step from a state that meets the invariant keeps it: the parameters stay
legal, the storage of `IN` stays canonical, its indices, lengths and offsets within its bounds, `OUT` stays within the
same bounds, an operation runs exactly while `BUSY`, with its cursors in range and a result that fits, a session's
chunk length is not 0, and `RES_STATUS` is specified only beside a status error. -/
def Obligations.EveryStepKeepsTheInvariant : Prop :=
  ∀ s t : State, s.Inv → step s = .next t → t.Inv

/-- 93_implementation_defined.md, end of part 1: no behaviour of the block is a fault. Under the invariant every
step has a next state. -/
def Obligations.NoStepStopsUnderTheInvariant : Prop :=
  ∀ s : State, s.Inv → ∃ t, step s = .next t

/-- R7: a model parameter never changes. -/
def Obligations.ParametersNeverChange : Prop :=
  ∀ s t : State, step s = .next t → t.params = s.params

/-- R22, R162, R190 (decisions D14, D17, D18): a step changes the session registers only where `CFG` is accepted,
which writes exactly its operands, or where the host resets the block. (That the host's next action is the head of a
list, and that a value above 255 written to `OP` counts by its low 8 bits, is the model's choice:
notes/assumptions/4.md and 11.md.) -/
def Obligations.SessionChangesOnlyByCfgOrReset : Prop :=
  ∀ s t : State, step s = .next t → t.cfg ≠ s.cfg →
    (s.seq = .unconf ∧ t.seq = .idle ∧ s.CfgNext t.cfg) ∨ (s.ResetNext ∧ t.seq = .unconf)

/-- R26, R190 (decisions D16, D18): the transitions of `STATE`, all of them, each with its cause: reset leads to
`UNCONF` from any state and is the only way into it, so the only way to end a session; an accepted `CFG` leads from
`UNCONF` to `IDLE`; an accepted issue of another operation, from `IDLE` to `BUSY` with the operands sampled; a pass
that completes the running operation, from `BUSY` to `IDLE`; and nothing else changes `STATE`. (That the host's next
action is the head of a list is the model's choice, notes/assumptions/4.md; so is that a value above 255 written to
`OP` counts by its low 8 bits, notes/assumptions/11.md, DESIGN CHOICE.) -/
def Obligations.SequencerTransitions : Prop :=
  ∀ s t : State, step s = .next t →
    (s.ResetNext → t.seq = .unconf) ∧
    (∀ c, s.CfgNext c → s.seq = .unconf ∧ t.seq = .idle) ∧
    (∀ r, s.IssueNext r → s.seq = .idle ∧ t.seq = .busy) ∧
    (t.seq ≠ s.seq →
      (t.seq = .unconf ∧ s.ResetNext) ∨
      (s.seq = .unconf ∧ t.seq = .idle ∧ ∃ c, s.CfgNext c) ∨
      (s.seq = .idle ∧ t.seq = .busy ∧ ∃ r, s.IssueNext r ∧ t.run = some r) ∨
      (s.seq = .busy ∧ t.seq = .idle ∧ s.PassNext ∧ t.run = none ∧
        ∃ r, s.run = some r ∧ advance r (s.withHost s.host.tail) = .next t))

/-! ### CFG -/

/-- R160 (decision D17): `CFG` in `UNCONF`, its three operands written and the chunk length not 0, opens the
session with those values; nothing else changes. -/
def Obligations.CfgOpensTheSession : Prop :=
  ∀ (s : State) (a : BitVec 32) (c : BitVec 16) (k : BitVec 2),
    s.seq = .unconf → s.args.address = Reg.known a → s.args.chunk = Reg.known c →
    s.args.capsel = Reg.known k → c ≠ 0 →
    exec .cfg s = .next { s with cfg := { address := a, chunk := c, capsel := k }, seq := .idle }

/-- R161 (decisions D8, D17, D18): each ground on which `CFG` is refused, and a refused `CFG` changes nothing. -/
def Obligations.CfgRefusedChangesNothing : Prop :=
  ∀ s : State,
    (s.seq ≠ .unconf ∨ s.args.chunk.val = 0 ∨ s.args.address.defined = false ∨
      s.args.chunk.defined = false ∨ s.args.capsel.defined = false) →
    exec .cfg s = .next s

/-- R193 (decisions D17, D24): before a session every op word but `0x01` is refused, waited for or not. -/
def Obligations.NothingRunsBeforeConfiguration : Prop :=
  ∀ (s : State) (w : Byte), s.seq = .unconf → w ≠ 0x01 →
    hostAction (.operate w) s = .next s ∧ hostAction (.writeReg 0x01 w.toNat) s = .next s

/-! ### ENC -/

/-- R100, R101 (decisions D11, D14, D22): `ENC` of a payload within the capacity into a destination that holds the
frame writes exactly the frame, byte for byte, into `OUT[0]`, and its size into `RES_COUNT`; no other result
register is specified, and the inputs are as before. -/
def Obligations.EncWritesTheFrame : Prop :=
  ∀ (s : State) (a : BitVec 32) (ty : Byte) (o : BitVec 16) (p : Bytes),
    s.seq = .idle → s.roomFor 1 (11 + s.cap) = true →
    s.args.address = Reg.known a → s.args.ptype = Reg.known ty → s.args.outcap = Reg.known o →
    s.mem.operand 0 = some p → p.length ≤ s.cap → 11 + p.length ≤ o.toNat →
    ∃ t, exec .enc s = .next t ∧ Ended s t ∧ t.res.kind = .ok ∧
      t.res.count = Reg.known (BitVec.ofNat 16 (11 + p.length)) ∧
      t.res.status.defined = false ∧ t.res.address.defined = false ∧ t.res.ptype.defined = false ∧
      t.res.length.defined = false ∧
      t.mem.out =
        [[0xEF, 0x01] ++ be32 a ++ [ty] ++ be16 (BitVec.ofNat 16 (p.length + 2)) ++ p ++
          be16 (csum16 ty (BitVec.ofNat 16 (p.length + 2)) p)]

/-- R100, R101, R102 (c) (decisions D11, D22): `ENC` of a payload above the capacity, or into a destination one
byte or more too small, ends in a frame error and leaves `OUT` entirely as it was. -/
def Obligations.EncWithoutSpaceLeavesOut : Prop :=
  ∀ (s : State) (a : BitVec 32) (ty : Byte) (o : BitVec 16) (p : Bytes),
    s.seq = .idle → s.roomFor 1 (11 + s.cap) = true →
    s.args.address = Reg.known a → s.args.ptype = Reg.known ty → s.args.outcap = Reg.known o →
    s.mem.operand 0 = some p → (s.cap < p.length ∨ o.toNat < 11 + p.length) →
    ∃ t, exec .enc s = .next t ∧ Ended s t ∧ t.res.OnlyKind .frameError ∧ t.mem.out = s.mem.out

/-- R57, R91: where each field of an encoded frame lies: byte 0 is `0xEF` and byte 1 `0x01`, the address from most
to least significant byte at 2 to 5, the type at 6, the length `n + 2` at 7 and 8, the payload from 9, the
checksum, high byte first, at `9 + n`, and nothing after it. -/
def Obligations.FrameMapOfEncodedFrames : Prop :=
  ∀ (a : BitVec 32) (ty : Byte) (p f : Bytes) (outcap : Nat) (sel : BitVec 2),
    encodePacket a ty p outcap (capOf sel) = .ok f →
    f.length = 11 + p.length ∧ f.length = 9 + (be16At f 7).toNat ∧
    byteAt f 0 = 0xEF ∧ byteAt f 1 = 0x01 ∧
    byteAt f 2 = a.extractLsb' 24 8 ∧ byteAt f 3 = a.extractLsb' 16 8 ∧
    byteAt f 4 = a.extractLsb' 8 8 ∧ byteAt f 5 = a.extractLsb' 0 8 ∧
    byteAt f 6 = ty ∧
    byteAt f 7 = (BitVec.ofNat 16 (p.length + 2)).extractLsb' 8 8 ∧
    byteAt f 8 = (BitVec.ofNat 16 (p.length + 2)).extractLsb' 0 8 ∧
    (be16At f 7).toNat = p.length + 2 ∧
    slice f 9 p.length = p ∧
    byteAt f (9 + p.length) = (csum16 ty (BitVec.ofNat 16 (p.length + 2)) p).extractLsb' 8 8 ∧
    byteAt f (10 + p.length) = (csum16 ty (BitVec.ofNat 16 (p.length + 2)) p).extractLsb' 0 8

/-! ### The checksum -/

/-- R90 (decision D1): the checksum is the sum of the type byte, the two length bytes and the payload bytes, each
an unsigned number, modulo 65536. -/
def Obligations.ChecksumIsTheByteSum : Prop :=
  ∀ (ty : Byte) (len : BitVec 16) (p : Bytes),
    (csum16 ty len p).toNat =
      (ty.toNat + len.toNat / 256 + len.toNat % 256 + (p.map BitVec.toNat).sum) % 65536

/-- R92: after the length checks `DEC` adds the bytes as received, from the type byte to the last payload byte, and
compares with the two bytes after them; it accepts exactly when they are equal, and otherwise rejects the frame. -/
def Obligations.VerifierComparesReceivedBytes : Prop :=
  ∀ (buf : Bytes) (cap : Nat),
    11 ≤ buf.length → byteAt buf 0 = 0xEF → byteAt buf 1 = 0x01 →
    2 ≤ (be16At buf 7).toNat → (be16At buf 7).toNat - 2 ≤ cap → 9 + (be16At buf 7).toNat = buf.length →
    (((slice buf 6 ((be16At buf 7).toNat + 1)).map BitVec.toNat).sum % 65536 =
        (be16At buf (7 + (be16At buf 7).toNat)).toNat →
      ∃ p, decodePacket buf (be32At buf 2) cap = .ok p) ∧
    (((slice buf 6 ((be16At buf 7).toNat + 1)).map BitVec.toNat).sum % 65536 ≠
        (be16At buf (7 + (be16At buf 7).toNat)).toNat →
      ∃ c, decodePacket buf (be32At buf 2) cap = .error (.frame c))

/-! ### DEC -/

/-- R103, R104 (decisions D2 to D5, D29): a buffer that passes every check is returned as its packet: address, type
and length in the result registers, the payload in `OUT[0]`; the other result registers are not specified. -/
def Obligations.DecReturnsThePacket : Prop :=
  ∀ (s : State) (a : BitVec 32) (buf : Bytes),
    s.seq = .idle → s.roomFor 1 s.cap = true → s.args.address = Reg.known a →
    s.mem.operand 0 = some buf →
    11 ≤ buf.length → byteAt buf 0 = 0xEF → byteAt buf 1 = 0x01 → be32At buf 2 = a →
    2 ≤ (be16At buf 7).toNat → (be16At buf 7).toNat - 2 ≤ s.cap → 9 + (be16At buf 7).toNat = buf.length →
    csum16 (byteAt buf 6) (be16At buf 7) (slice buf 9 ((be16At buf 7).toNat - 2)) =
      be16At buf (7 + (be16At buf 7).toNat) →
    ∃ t, exec .dec s = .next t ∧ Ended s t ∧ t.res.kind = .ok ∧
      t.res.address = Reg.known a ∧ t.res.ptype = Reg.known (byteAt buf 6) ∧
      t.res.length = Reg.known (be16At buf 7) ∧
      t.res.status.defined = false ∧ t.res.count.defined = false ∧
      t.mem.out = [slice buf 9 ((be16At buf 7).toNat - 2)]

/-- R103, R104, R105 (decisions D2 to D5): a buffer that fails any one check ends in a frame error, `OUT` is empty
and nothing of the packet is delivered. The length is compared without wrapping (R109). -/
def Obligations.DecRejectsOtherBuffers : Prop :=
  ∀ (s : State) (a : BitVec 32) (buf : Bytes),
    s.seq = .idle → s.roomFor 1 s.cap = true → s.args.address = Reg.known a →
    s.mem.operand 0 = some buf →
    (buf.length < 11 ∨ byteAt buf 0 ≠ 0xEF ∨ byteAt buf 1 ≠ 0x01 ∨ be32At buf 2 ≠ a ∨
      (be16At buf 7).toNat < 2 ∨ s.cap < (be16At buf 7).toNat - 2 ∨
      9 + (be16At buf 7).toNat ≠ buf.length ∨
      csum16 (byteAt buf 6) (be16At buf 7) (slice buf 9 ((be16At buf 7).toNat - 2)) ≠
        be16At buf (7 + (be16At buf 7).toNat)) →
    ∃ t, exec .dec s = .next t ∧ EndedInFrameError s t

/-- R106: the round trip, on the machine: what `ENC` leaves in `OUT`, moved into `IN[0]` of the same session, is
decoded by `DEC` to the packet it was made from. It holds for every packet type. -/
def Obligations.EncThenDecReturnsThePacket : Prop :=
  ∀ (s t u : State) (a : BitVec 32) (ty : Byte) (o : BitVec 16) (p : Bytes),
    s.seq = .idle → s.roomFor 1 (11 + s.cap) = true →
    s.args.address = Reg.known a → s.args.ptype = Reg.known ty → s.args.outcap = Reg.known o →
    s.mem.operand 0 = some p → p.length ≤ s.cap → 11 + p.length ≤ o.toNat →
    exec .enc s = .next t →
    u.seq = .idle → u.cfg = s.cfg → u.roomFor 1 u.cap = true → u.args.address = Reg.known a →
    u.mem.operand 0 = t.mem.out[0]? →
    ∃ v, exec .dec u = .next v ∧ v.res.kind = .ok ∧ v.res.address = Reg.known a ∧
      v.res.ptype = Reg.known ty ∧ v.res.length = Reg.known (BitVec.ofNat 16 (p.length + 2)) ∧
      v.mem.out = [p]

/-- R107, R94: replacing any one byte of an encoded frame by a different value makes `DEC` reject it. -/
def Obligations.SingleByteChangesAreDetected : Prop :=
  ∀ (a : BitVec 32) (ty : Byte) (p f : Bytes) (outcap : Nat) (sel : BitVec 2) (k : Nat) (b : Byte),
    encodePacket a ty p outcap (capOf sel) = .ok f → k < f.length → byteAt f k ≠ b →
    ∃ c, decodePacket (f.set k b) a (capOf sel) = .error (.frame c)

/-- R108: a well-formed frame, one that `DEC` accepts with some expected address, fails with a frame error when it
is decoded with any other one, whatever the capacity. -/
def Obligations.AddressGating : Prop :=
  ∀ (a expected : BitVec 32) (frame : Bytes) (cap cap' : Nat) (p : Packet),
    decodePacket frame a cap = .ok p → p.address ≠ expected →
    ∃ c, decodePacket frame expected cap' = .error (.frame c)

/-! ### CMD -/

/-- R120, R121, R122 (decisions D12, D14, D22, D33): `CMD` frames the code and the first `CAP - 1` parameters at most, with
the session address and type `0x01`; longer parameters are cut without a report. -/
def Obligations.CmdBuildsTheCommandFrame : Prop :=
  ∀ (s : State) (code : Byte) (params : Bytes),
    s.seq = .idle → s.roomFor 1 (11 + s.cap) = true → s.args.code = Reg.known code →
    s.mem.operand 0 = some params → 12 + min params.length (s.cap - 1) ≤ s.params.stageSize →
    ∃ t, exec .cmd s = .next t ∧ Ended s t ∧ t.res.OnlyKind .ok ∧
      t.mem.out = [frameOf s.cfg.address 0x01 (code :: params.take (s.cap - 1))]

/-- R120, R121, R122 (f) (decisions D12, D22): `CMD` ends in a frame error when its frame is larger than the staging
buffer. -/
def Obligations.CmdFailsWhenStageIsTooSmall : Prop :=
  ∀ (s : State) (code : Byte) (params : Bytes),
    s.seq = .idle → s.roomFor 1 (11 + s.cap) = true → s.args.code = Reg.known code →
    s.mem.operand 0 = some params → s.params.stageSize < 12 + min params.length (s.cap - 1) →
    ∃ t, exec .cmd s = .next t ∧ EndedInFrameError s t

/-! ### ACK -/

/-- R125: `ACK` decodes with the session address; a frame error of `DEC` passes through; a type other than `0x07`
and an empty payload are frame errors; a status byte outside `SUCCESS_SET` is a status error that delivers it; and
otherwise the bytes after the status byte are the result. What a failure leaves in `OUT` and in the other result
registers is the spec's decision (R124, R178; D14, D22). -/
def Obligations.AckOutcomes : Prop :=
  ∀ (s : State) (bytes : Bytes),
    s.seq = .idle → s.roomFor 1 s.cap = true → s.mem.operand 0 = some bytes →
    ∃ t, exec .ack s = .next t ∧ Ended s t ∧
      match decodePacket bytes s.cfg.address s.cap with
      | .error _ => EndedInFrameError s t
      | .ok p =>
        if p.ptype ≠ 0x07 then EndedInFrameError s t
        else
          match p.payload with
          | [] => EndedInFrameError s t
          | status :: rest =>
            if status ∈ s.params.successSet then t.res.OnlyKind .ok ∧ t.mem.out = [rest]
            else t.res.OnlyStatus status ∧ t.mem.out = []

/-- R175: a frame that is invalid in any way, of another type or without a status byte ends in a frame error, and a
status error is reported only for a valid acknowledge frame whose status byte denotes an error. -/
def Obligations.StatusErrorNeedsAValidFrame : Prop :=
  ∀ (s t : State) (bytes : Bytes),
    s.seq = .idle → s.roomFor 1 s.cap = true → s.mem.operand 0 = some bytes → exec .ack s = .next t →
    ((∀ p, decodePacket bytes s.cfg.address s.cap = .ok p → p.ptype ≠ 0x07 ∨ p.payload = []) →
      t.res.kind = .frameError) ∧
    (t.res.kind = .statusError →
      ∃ p status rest, decodePacket bytes s.cfg.address s.cap = .ok p ∧ p.ptype = 0x07 ∧
        p.payload = status :: rest ∧ status ∉ s.params.successSet ∧ t.res.status = Reg.known status)

/-! ### DTX -/

/-- R140 to R144 (decisions D7, D8, D12, D33): with `w = min(CHUNK_LEN, CAP)`, `DTX` frames `ceil(N / w)` chunks in
order, the last one with type `0x08` and the others with `0x02`, leaves out exactly those that do not fit the
staging buffer, and always ends `OK`; no data gives no frame. -/
def Obligations.DtxFramesEveryChunk : Prop :=
  ∀ (s : State) (data : Bytes) (w k : Nat),
    w = min s.cfg.chunk.toNat s.cap → k = (data.length + w - 1) / w →
    s.seq = .idle → s.roomFor k (11 + s.cap) = true → s.mem.operand 0 = some data → s.cfg.chunk ≠ 0 →
    ∃ t, exec .dtx s = .next t ∧ Ended s t ∧ t.res.OnlyKind .ok ∧
      t.mem.out = (List.range k).flatMap (fun j =>
        if 11 + (slice data (j * w) w).length ≤ s.params.stageSize then
          [frameOf s.cfg.address (if j + 1 = k then 0x08 else 0x02) (slice data (j * w) w)]
        else [])

/-- R145: with data, and a staging buffer that holds every frame, exactly one frame of `DTX` has type `0x08`, it is
the last, and every other one has type `0x02`. -/
def Obligations.DtxTagsTheLastFrame : Prop :=
  ∀ (s t : State) (data : Bytes),
    dtxOperands s = some data → data ≠ [] → 11 + s.chunkMax ≤ s.params.stageSize →
    exec .dtx s = .next t →
    ∃ front last, t.mem.out = front ++ [last] ∧ byteAt last 6 = 0x08 ∧
      ∀ f ∈ front, byteAt f 6 = 0x02

/-- U6, D8 (the model's choice among U6's, notes/assumptions/14.md): in a session with chunk length 0, which `CFG`
never opens, `DTX` on data is stuck. -/
def Obligations.DtxStuckWithoutChunkLength : Prop :=
  ∀ (s : State) (data : Bytes),
    dtxOperands s = some data → data ≠ [] → s.cfg.chunk = 0 → exec .dtx s = .fault .dtxNoProgress

/-! ### DRX -/

/-- R176: frames are examined in index order. After data frames that pass, a frame that fails to decode, or whose
type is neither `0x02` nor `0x08`, ends the operation in a frame error; an `0x08` frame that passes ends it `OK`
with the concatenated payloads, whatever the later frames are. What a failure leaves in `OUT` and in the result
registers is the spec's decision (R146, R178; D14, D22). -/
def Obligations.DrxExaminesInOrder : Prop :=
  ∀ (s : State) (pre post : List Bytes) (frame : Bytes) (payloads : List Bytes),
    s.seq = .idle → s.roomFor 1 (s.mem.inCount * s.cap) = true →
    s.mem.operands = some (pre ++ frame :: post) →
    List.Forall₂ (fun f x => ∃ q, decodePacket f s.cfg.address s.cap = .ok q ∧ q.ptype = 0x02 ∧ q.payload = x)
      pre payloads →
    (∀ q, decodePacket frame s.cfg.address s.cap = .ok q → q.ptype = 0x08 →
      ∃ t, exec .drx s = .next t ∧ Ended s t ∧ t.res.OnlyKind .ok ∧
        t.mem.out = [payloads.flatten ++ q.payload]) ∧
    ((∀ q, decodePacket frame s.cfg.address s.cap = .ok q → q.ptype ≠ 0x02 ∧ q.ptype ≠ 0x08) →
      ∃ t, exec .drx s = .next t ∧ EndedInFrameError s t)

/-- R147, R149 (a), (i) (decision D9): frames that are all data frames, or no frame at all, give their concatenated
payloads, with no end_data frame seen. -/
def Obligations.DrxAcceptsAStreamWithoutEnd : Prop :=
  ∀ (s : State) (frames payloads : List Bytes),
    s.seq = .idle → s.roomFor 1 (s.mem.inCount * s.cap) = true → s.mem.operands = some frames →
    List.Forall₂ (fun f x => ∃ q, decodePacket f s.cfg.address s.cap = .ok q ∧ q.ptype = 0x02 ∧ q.payload = x)
      frames payloads →
    ∃ t, exec .drx s = .next t ∧ Ended s t ∧ t.res.OnlyKind .ok ∧ t.mem.out = [payloads.flatten]

/-- R150: the chunk round trip, on the machine: the strings `DTX` leaves in `OUT`, moved into `IN` of the same
session, are reassembled by `DRX` to the data they were made from. -/
def Obligations.DtxThenDrxReturnsTheData : Prop :=
  ∀ (s t u : State) (data : Bytes),
    dtxOperands s = some data → s.cfg.chunk ≠ 0 → 11 + s.chunkMax ≤ s.params.stageSize →
    exec .dtx s = .next t →
    u.seq = .idle → u.cfg = s.cfg → u.roomFor 1 (u.mem.inCount * u.cap) = true →
    u.mem.operands = some t.mem.out →
    ∃ v, exec .drx u = .next v ∧ v.res.OnlyKind .ok ∧ v.mem.out = [data]

/-! ### The frame headers -/

/-- R50, R205 (notes/assumptions/6.md, the model's choice): a frame handed over while the block is not `BUSY` and
`IN` has room becomes the string of `IN` at index `IN_COUNT`, header and body, and the count goes up by one; every
other string of `IN`, `OUT` and every register is as before, for a frame of each of the four types. -/
def Obligations.FrameBecomesTheNextInputString : Prop :=
  ∀ (i : Instr) (s : State) (a : BitVec 32) (len : BitVec 16) (body : Bytes),
    (i = .tCommand a len body ∨ i = .tData a len body ∨ i = .tAck a len body ∨ i = .tEndData a len body) →
    s.seq ≠ .busy → s.roomFor (s.mem.inCount + 1) (encode i).length = true →
    ∃ t, exec i s = .next t ∧ t.mem.inCount = s.mem.inCount + 1 ∧
      t.mem.operand s.mem.inCount = some (encode i) ∧
      (∀ k, k ≠ s.mem.inCount → t.mem.str k = s.mem.str k) ∧
      (∀ j, (encode i).length ≤ j →
        Assoc.get j (t.mem.str s.mem.inCount).cells = Assoc.get j (s.mem.str s.mem.inCount).cells) ∧
      t = { s with mem := { s.mem with inCount := t.mem.inCount, inStrs := t.mem.inStrs } }

/-- R9, R205 (notes/assumptions/4.md, 6.md, 10.md and 20.md, the model's choice): while not `BUSY`, a string the
transport moves, be it `OUT[k]` (relay) or any bytes, a frame or not (carry), becomes the string of `IN` at index
`IN_COUNT` when there is room, and everything else is as before; without room, and at or beyond `OUT_COUNT`, nothing
changes. -/
def Obligations.TransportAppendsToInput : Prop :=
  ∀ s : State, s.seq ≠ .busy →
    (∀ a bytes, (a = .carry bytes ∨ ∃ k, a = .relay k ∧ s.mem.out[k]? = some bytes) →
      (s.roomFor (s.mem.inCount + 1) bytes.length = true →
        ∃ t, hostAction a s = .next t ∧ t.mem.inCount = s.mem.inCount + 1 ∧
          t.mem.operand s.mem.inCount = some bytes ∧
          (∀ k, k ≠ s.mem.inCount → t.mem.str k = s.mem.str k) ∧
          (∀ j, bytes.length ≤ j →
            Assoc.get j (t.mem.str s.mem.inCount).cells = Assoc.get j (s.mem.str s.mem.inCount).cells) ∧
          t = { s with mem := { s.mem with inCount := t.mem.inCount, inStrs := t.mem.inStrs } }) ∧
      (s.roomFor (s.mem.inCount + 1) bytes.length = false → hostAction a s = .next s)) ∧
    (∀ k, s.mem.out.length ≤ k → hostAction (.relay k) s = .next s)

/-- R34, R28 (notes/assumptions/6.md and 10.md, the model's choice): a frame handed over while `BUSY`, or when `IN`
has no room for it, is dropped. -/
def Obligations.FrameDroppedWhenBusyOrFull : Prop :=
  ∀ (i : Instr) (s : State) (a : BitVec 32) (len : BitVec 16) (body : Bytes),
    (i = .tCommand a len body ∨ i = .tData a len body ∨ i = .tAck a len body ∨ i = .tEndData a len body) →
    (s.seq = .busy ∨ s.roomFor (s.mem.inCount + 1) (encode i).length = false) →
    exec i s = .next s

/-- R73 (column "Accepted by"), R127 (a), R149 (h): a frame of a defined type in `IN[0]` makes `ACK` end in a frame
error unless it is an acknowledge frame, and makes `DRX` end in one unless it is a data or end_data frame. -/
def Obligations.HandlersTakeOnlyTheirTypes : Prop :=
  ∀ (i : Instr) (s : State) (a : BitVec 32) (len : BitVec 16) (body : Bytes) (rest : List Bytes),
    s.seq = .idle →
    ((i = .tCommand a len body ∨ i = .tData a len body ∨ i = .tEndData a len body) →
      s.roomFor 1 s.cap = true → s.mem.operand 0 = some (encode i) →
      ∃ t, exec .ack s = .next t ∧ EndedInFrameError s t) ∧
    ((i = .tCommand a len body ∨ i = .tAck a len body) →
      s.roomFor 1 (s.mem.inCount * s.cap) = true → s.mem.operands = some (encode i :: rest) →
      ∃ t, exec .drx s = .next t ∧ EndedInFrameError s t)

/-! ### Encodings -/

/-- R70, R82: the decoder reads back every well-formed instruction from its encoding, with every operand at every
value, and leaves the bytes that follow it. -/
def Obligations.DecodeOfEncodeIsIdentity : Prop :=
  ∀ (i : Instr) (rest : Bytes), i.wf = true → decode (encode i ++ rest) = .ok (i, rest)

/-- R70, R82, R83: whatever the decoder reads is well formed and is the encoding of what it read, so no bytes have
two readings and no reserved encoding falls through to a neighbour. -/
def Obligations.EncodeOfDecodeIsIdentity : Prop :=
  ∀ (i : Instr) (bytes rest : Bytes), decode bytes = .ok (i, rest) → i.wf = true ∧ encode i ++ rest = bytes

/-- R83, R166 (decision D23): the op words `0x00` and `0x08` to `0xFF` are refused in every state: nothing
changes, waited for or not. -/
def Obligations.ReservedWordsChangeNothing : Prop :=
  ∀ (s : State) (w : Byte), w = 0 ∨ 8 ≤ w.toNat →
    hostAction (.operate w) s = .next s ∧ hostAction (.writeReg 0x01 w.toNat) s = .next s

/-- R82, R73: some words written out from the spec's encodings decode to what they stand for (a sanity check). How a
header's 72 bits are numbered, and that the bytes after the header are 0, as in the bodies `[0, 0]` and `[]` here, is
the model's reading of the table (notes/assumptions/21.md, DEDUCED). -/
def Obligations.WordsOfTheTableDecode : Prop :=
  decodeTableWord 8 0x01 = some .cfg ∧ decodeTableWord 8 0x07 = some .drx ∧
  decodeTableWord 8 0x08 = none ∧
  decodeTableWord 72 0xEF0112345678010002 = some (.tCommand 0x12345678 2 [0, 0]) ∧
  decodeTableWord 72 0xEF0100000000080000 = some (.tEndData 0 0 []) ∧
  decodeTableWord 72 0xEF0100000000030000 = none

/-! ### The step -/

/-- R60, R86, R205: the next step is the meaning of the instruction the host's next action holds: an op word that
decodes to `i`, or a byte string that is exactly one frame that decodes to `i`; the action is used up. The block
fetches nothing (R26, R63): that the host is a list whose head is the next instruction, and that a frame handed over
runs as one, is the model's choice (notes/assumptions/4.md and 6.md). -/
def Obligations.StepRunsTheDecodedInstruction : Prop :=
  ∀ (s : State) (rest : List HostAct) (i : Instr),
    (∀ w, s.host = .operate w :: rest → decodeOp w = .ok i → step s = exec i (s.withHost rest)) ∧
    (∀ bytes, s.host = .carry bytes :: rest → decodeFrame bytes = .ok i → step s = exec i (s.withHost rest))

/-! ### What operations leave alone, and when they are refused -/

/-- R65: an operation other than `CFG` never modifies `IN`, the operand registers or the session, neither as one
step nor in any pass while it runs. -/
def Obligations.OperationsKeepTheirInputs : Prop :=
  (∀ (i : Instr) (s t : State), isOperation i = true → exec i s = .next t → KeepsInputs s t) ∧
  (∀ (i : Instr) (s t : State), isOperation i = true → issue i s = .next t → KeepsInputs s t) ∧
  (∀ s t : State, tick s = .next t → KeepsInputs s t)

/-- R165 (decisions D15, D18, D22, D24): each ground on which one of the six operations is refused, and a refused
operation changes nothing, waited for or not. That one unwritten byte of `IN[0]`, or for `DRX` of any string below
`IN_COUNT`, also one behind an end_data frame, is such a ground is the model's choice (notes/assumptions/9.md); the sizes
in the room clauses are its reading of R59 (notes/assumptions/22.md, DEDUCED). -/
def Obligations.RefusedIssuesChangeNothing : Prop :=
  ∀ (i : Instr) (s : State), isOperation i = true →
    (s.seq ≠ .idle ∨
      (i ≠ .drx ∧ s.mem.inCount = 0) ∨
      (i ≠ .drx ∧ ((s.mem.str 0).len = none ∨
        ∃ n j, (s.mem.str 0).len = some n ∧ j < n ∧ Assoc.get j (s.mem.str 0).cells = none)) ∨
      (i = .drx ∧ ∃ k, k < s.mem.inCount ∧ ((s.mem.str k).len = none ∨
        ∃ n j, (s.mem.str k).len = some n ∧ j < n ∧ Assoc.get j (s.mem.str k).cells = none)) ∨
      ((i = .enc ∨ i = .dec) ∧ s.args.address.defined = false) ∨
      (i = .enc ∧ (s.args.ptype.defined = false ∨ s.args.outcap.defined = false)) ∨
      (i = .cmd ∧ s.args.code.defined = false) ∨
      ((i = .enc ∨ i = .cmd) ∧ s.roomFor 1 (11 + s.cap) = false) ∨
      ((i = .dec ∨ i = .ack) ∧ s.roomFor 1 s.cap = false) ∨
      (i = .dtx ∧ ∃ data, s.mem.operand 0 = some data ∧
        s.roomFor ((data.length + s.chunkMax - 1) / s.chunkMax) (11 + s.cap) = false) ∨
      (i = .drx ∧ s.roomFor 1 (s.mem.inCount * s.cap) = false)) →
    exec i s = .next s ∧ issue i s = .next s

/-- R31: the result of an operation depends only on the session, the operand registers and `IN` (and on the free
values drawn): in two states that agree on those, both are refused, or both give the same result registers and the
same `OUT`, but for a failed `ENC`, which leaves each `OUT` as it was. -/
def Obligations.ResultDependsOnInputsOnly : Prop :=
  ∀ (i : Instr) (s s' t t' : State), isOperation i = true →
    s.params = s'.params → s.seq = s'.seq → s.cfg = s'.cfg → s.args = s'.args →
    s.mem.inCount = s'.mem.inCount → s.mem.inStrs = s'.mem.inStrs → s.draws = s'.draws →
    exec i s = .next t → exec i s' = .next t' →
    (t = s ∧ t' = s') ∨
    (t.res = t'.res ∧
      (t.mem.out = t'.mem.out ∨
        (i = .enc ∧ t.res.kind = .frameError ∧ t.mem.out = s.mem.out ∧ t'.mem.out = s'.mem.out)))

/-- R173: how each operation can end once it is accepted. -/
def Obligations.OperationsEndAsTabulated : Prop :=
  ∀ (i : Instr) (s t : State), isOperation i = true → sampled i s ≠ none → exec i s = .next t →
    (t.res.kind = .statusError → i = .ack) ∧
    (i = .dtx → t.res.kind = .ok) ∧
    (i = .cmd → t.res.kind = .frameError → s.params.stageSize < 11 + s.cap)

/-- R179: an operation that ends in an error has delivered no part of a result: a failed `ENC` leaves `OUT` as it
was, every other failed operation leaves it empty, and no result register but the status byte of a status error is
specified. -/
def Obligations.ErrorsDeliverNoPartOfAResult : Prop :=
  ∀ (i : Instr) (s t : State), isOperation i = true → sampled i s ≠ none → exec i s = .next t →
    t.res.kind ≠ .ok →
    Ended s t ∧ t.mem.out = (if i = .enc then s.mem.out else []) ∧
    t.res.count.defined = false ∧ t.res.address.defined = false ∧ t.res.ptype.defined = false ∧
    t.res.length.defined = false ∧ (t.res.status.defined = true ↔ t.res.kind = .statusError)

/-- R29, R59 (decision D15): an operation never leaves more strings or longer strings in `OUT` than the bounds
allow. -/
def Obligations.OutStaysWithinBounds : Prop :=
  ∀ (i : Instr) (s t : State), s.outIn = true → exec i s = .next t → t.outIn = true

/-! ### The host's registers and buffers -/

/-- R56 (decision D14): a host read of a register or of a buffer changes nothing of the block: only the value
returned to the host and the count of free values drawn. -/
def Obligations.ReadsHaveNoSideEffect : Prop :=
  ∀ (a : HostAct) (s : State),
    ((∃ i, a = .readReg i) ∨ (∃ i, a = .readInLen i) ∨ (∃ i j, a = .readIn i j) ∨ (∃ k, a = .readOutLen k) ∨
      (∃ k j, a = .readOut k j)) →
    ∃ t, hostAction a s = .next t ∧ t = { s with readData := t.readData, draws := t.draws }

/-- R22, R23, R24, R26, R34 (decisions D14, D21): what a host read returns: `STATE` at any time; the session
registers in a session; `RES_KIND`, the counts, the specified result registers and the written operand registers
while not `BUSY`. -/
def Obligations.HostReadsReturnTheRegisters : Prop :=
  ∀ s : State,
    hostAction (.readReg 0x00) s =
      .next { s with readData := match s.seq with | .unconf => 0 | .idle => 1 | .busy => 2 } ∧
    (s.seq ≠ .unconf →
      hostAction (.readReg 0x02) s = .next { s with readData := s.cfg.address.toNat } ∧
      hostAction (.readReg 0x03) s = .next { s with readData := s.cfg.chunk.toNat } ∧
      hostAction (.readReg 0x04) s = .next { s with readData := s.cfg.capsel.toNat }) ∧
    (s.seq ≠ .busy →
      hostAction (.readReg 0x10) s =
        .next { s with readData := match s.res.kind with | .ok => 0 | .frameError => 1 | .statusError => 2 } ∧
      hostAction (.readReg 0x18) s = .next { s with readData := s.mem.inCount } ∧
      hostAction (.readReg 0x19) s = .next { s with readData := s.mem.out.length } ∧
      (∀ v, s.res.status = Reg.known v → hostAction (.readReg 0x11) s = .next { s with readData := v.toNat }) ∧
      (∀ v, s.res.count = Reg.known v → hostAction (.readReg 0x12) s = .next { s with readData := v.toNat }) ∧
      (∀ v, s.res.address = Reg.known v → hostAction (.readReg 0x13) s = .next { s with readData := v.toNat }) ∧
      (∀ v, s.res.ptype = Reg.known v → hostAction (.readReg 0x14) s = .next { s with readData := v.toNat }) ∧
      (∀ v, s.res.length = Reg.known v → hostAction (.readReg 0x15) s = .next { s with readData := v.toNat }) ∧
      (∀ v, s.args.address = Reg.known v → hostAction (.readReg 0x08) s = .next { s with readData := v.toNat }) ∧
      (∀ v, s.args.ptype = Reg.known v → hostAction (.readReg 0x09) s = .next { s with readData := v.toNat }) ∧
      (∀ v, s.args.code = Reg.known v → hostAction (.readReg 0x0A) s = .next { s with readData := v.toNat }) ∧
      (∀ v, s.args.chunk = Reg.known v → hostAction (.readReg 0x0B) s = .next { s with readData := v.toNat }) ∧
      (∀ v, s.args.capsel = Reg.known v → hostAction (.readReg 0x0C) s = .next { s with readData := v.toNat }) ∧
      (∀ v, s.args.outcap = Reg.known v → hostAction (.readReg 0x0D) s = .next { s with readData := v.toNat }))

/-- R29, R34, R35, R52 (decisions D14, D15, D21): what a host read of a buffer returns while not `BUSY`: a written
byte and a written length of `IN` below its count, a byte and a length of `OUT`; a byte or a length of `OUT` beyond
those, and any of them while `BUSY`, is a free value (for `IN` beyond its count or length, or unwritten, the model's
reading: notes/assumptions/13.md). -/
def Obligations.HostReadsReturnTheBuffers : Prop :=
  ∀ (s : State) (i j : Nat),
    (s.seq ≠ .busy →
      (∀ n v, i < s.mem.inCount → (s.mem.str i).len = some n → j < n →
        Assoc.get j (s.mem.str i).cells = some v →
        hostAction (.readIn i j) s = .next { s with readData := v.toNat }) ∧
      (∀ n, i < s.mem.inCount → (s.mem.str i).len = some n →
        hostAction (.readInLen i) s = .next { s with readData := n }) ∧
      (∀ x, s.mem.out[i]? = some x →
        hostAction (.readOutLen i) s = .next { s with readData := x.length } ∧
        (∀ v, x[j]? = some v → hostAction (.readOut i j) s = .next { s with readData := v.toNat }))) ∧
    ((s.seq = .busy ∨ s.mem.inCount ≤ i ∨ (s.mem.str i).len = none ∨
        (∃ n, (s.mem.str i).len = some n ∧ n ≤ j) ∨ Assoc.get j (s.mem.str i).cells = none) →
      hostAction (.readIn i j) s = .next (s.answerFree 8)) ∧
    ((s.seq = .busy ∨ s.mem.inCount ≤ i ∨ (s.mem.str i).len = none) →
      hostAction (.readInLen i) s = .next s.answerFreeCount) ∧
    ((s.seq = .busy ∨ s.mem.out.length ≤ i ∨ ∃ x, s.mem.out[i]? = some x ∧ x.length ≤ j) →
      hostAction (.readOut i j) s = .next (s.answerFree 8)) ∧
    ((s.seq = .busy ∨ s.mem.out.length ≤ i) → hostAction (.readOutLen i) s = .next s.answerFreeCount)

/-- R23, R203 (decision D14): an operand register written while not `BUSY` reads back at once as the bits of its
field, and no other register's value changes. That a value wider than the field is cut to its low bits,
`v % 2 ^ width`, is the model's choice (notes/assumptions/11.md, DESIGN CHOICE). -/
def Obligations.OperandRegistersReadBack : Prop :=
  ∀ (s : State) (index width v : Nat),
    (index, width) ∈ [(0x08, 32), (0x09, 8), (0x0A, 8), (0x0B, 16), (0x0C, 2), (0x0D, 16)] → s.seq ≠ .busy →
    ∃ t u, hostAction (.writeReg index v) s = .next t ∧ hostAction (.readReg index) t = .next u ∧
      u.readData = v % 2 ^ width ∧
      (∀ other r, regAt other = some r → other ≠ index → readValue r t = readValue r s) ∧
      t = { s with args := t.args }

/-- R34, R61, R200 (decision D21): while `BUSY` every host write but one to `RESET` is dropped. -/
def Obligations.BusyDropsHostWrites : Prop :=
  ∀ (a : HostAct) (s : State), s.seq = .busy →
    ((∃ w, a = .operate w) ∨ (∃ b, a = .carry b) ∨ (∃ k, a = .relay k) ∨
      (∃ index v, index ≠ 0x1A ∧ a = .writeReg index v) ∨ (∃ i n, a = .writeInLen i n) ∨
      (∃ i j v, a = .writeIn i j v)) →
    hostAction a s = .next s

/-- R28, R52 (decision D15): a host write of a byte, a length or the count of `IN`, while not `BUSY` and within the
bounds, stores that value and leaves every other byte, length and register as it was. That this holds of strings at or
beyond `IN_COUNT` and of bytes at or beyond `IN_LEN` too, and that a changed count keeps all storage, is the model's
choice (notes/assumptions/10.md, DESIGN CHOICE). -/
def Obligations.InputWritesAreLocal : Prop :=
  ∀ s : State, s.seq ≠ .busy →
    (∀ i j v, fits s.params.maxFrames (i + 1) = true → fits s.params.maxData (j + 1) = true →
      ∃ t, hostAction (.writeIn i j v) s = .next t ∧
        Assoc.get j (t.mem.str i).cells = some v ∧
        (∀ i' j', (i', j') ≠ (i, j) →
          Assoc.get j' (t.mem.str i').cells = Assoc.get j' (s.mem.str i').cells) ∧
        (∀ i', (t.mem.str i').len = (s.mem.str i').len) ∧
        t = { s with mem := { s.mem with inStrs := t.mem.inStrs } }) ∧
    (∀ i n, fits s.params.maxFrames (i + 1) = true → fits s.params.maxData n = true →
      ∃ t, hostAction (.writeInLen i n) s = .next t ∧
        (t.mem.str i).len = some n ∧
        (∀ i', i' ≠ i → (t.mem.str i').len = (s.mem.str i').len) ∧
        (∀ i' j', Assoc.get j' (t.mem.str i').cells = Assoc.get j' (s.mem.str i').cells) ∧
        t = { s with mem := { s.mem with inStrs := t.mem.inStrs } }) ∧
    (∀ n, fits s.params.maxFrames n = true →
      hostAction (.writeReg 0x18 n) s = .next { s with mem := { s.mem with inCount := n } })

/-- R22, R24, R25, R26 (decision D14; for the registers whose row of R25 lists only reads, the model's choice,
notes/assumptions/12.md): a host write of a register it may only read, or of a reserved index, changes nothing. -/
def Obligations.ReadOnlyRegistersIgnoreWrites : Prop :=
  ∀ (s : State) (index v : Nat),
    index ∉ [0x01, 0x08, 0x09, 0x0A, 0x0B, 0x0C, 0x0D, 0x18, 0x1A] →
    hostAction (.writeReg index v) s = .next s

/-! ### The sequencer -/

/-- R163 (decision D16): an accepted issue makes the sequencer `BUSY` with the operands sampled; result registers,
`OUT` and inputs are as before. -/
def Obligations.IssueSamplesAndGoesBusy : Prop :=
  ∀ (s : State) (w : Byte) (i : Instr) (r : Running),
    decodeOp w = .ok i → sampled i s = some r →
    hostAction (.writeReg 0x01 w.toNat) s = .next { s with seq := .busy, run := some r }

/-- R206: an operation issued through `OP` and left to run, from any state that is not `BUSY`, ends where the
atomic step ends: every run of the machine of enough steps gives the outcome of the meaning. -/
def Obligations.IssuedRunEndsInTheAtomicResult : Prop :=
  ∀ (s : State) (w : Byte) (i : Instr),
    s.seq ≠ .busy → s.host = [] → decodeOp w = .ok i →
    ∃ N, ∀ n, N ≤ n → Host.Core.run core n (s.withHost [.writeReg 0x01 w.toNat]) = exec i s

/-- R204 (decision D30): an operation that is running, at any pass, ends after finitely many steps. -/
def Obligations.BusyAlwaysEnds : Prop :=
  ∀ s : State, s.Inv → s.seq = .busy → s.host = [] →
    ∃ (n : Nat) (t : State), Host.Core.run core n s = .next t ∧ t.seq = .idle
end

