-- ==== Sys2Proof/Laws/Bytes.lean ====
section
/-! SUPPORT. Byte order and slices: a number and its bytes are each got back from the other. -/

namespace Sys2Proof

theorem toNat_append_byte {w : Nat} (x : BitVec w) (b : Byte) : (x ++ b).toNat = x.toNat * 256 + b.toNat := by
  rw [BitVec.toNat_append, ← Nat.shiftLeft_add_eq_or_of_lt b.isLt, Nat.shiftLeft_eq]

theorem join16_toNat (a b : Byte) : (join16 a b).toNat = a.toNat * 256 + b.toNat :=
  toNat_append_byte a b

theorem join32_toNat (a b c d : Byte) :
    (join32 a b c d).toNat = ((a.toNat * 256 + b.toNat) * 256 + c.toNat) * 256 + d.toNat := by
  unfold join32
  rw [toNat_append_byte, toNat_append_byte, toNat_append_byte]

theorem toNat_byteOf {w : Nat} (v : BitVec w) (k : Nat) : (v.extractLsb' k 8).toNat = v.toNat / 2 ^ k % 256 := by
  rw [BitVec.extractLsb'_toNat, Nat.shiftRight_eq_div_pow]

theorem extract_join16_hi (a b : Byte) : (join16 a b).extractLsb' 8 8 = a := by
  apply BitVec.eq_of_toNat_eq
  have := a.isLt; have := b.isLt
  rw [toNat_byteOf, join16_toNat]; omega

theorem extract_join16_lo (a b : Byte) : (join16 a b).extractLsb' 0 8 = b := by
  apply BitVec.eq_of_toNat_eq
  have := a.isLt; have := b.isLt
  rw [toNat_byteOf, join16_toNat]; omega

theorem join16_extract (v : BitVec 16) : join16 (v.extractLsb' 8 8) (v.extractLsb' 0 8) = v := by
  apply BitVec.eq_of_toNat_eq
  have := v.isLt
  rw [join16_toNat, toNat_byteOf, toNat_byteOf]; omega

theorem join32_extract (v : BitVec 32) :
    join32 (v.extractLsb' 24 8) (v.extractLsb' 16 8) (v.extractLsb' 8 8) (v.extractLsb' 0 8) = v := by
  apply BitVec.eq_of_toNat_eq
  have := v.isLt
  rw [join32_toNat, toNat_byteOf, toNat_byteOf, toNat_byteOf, toNat_byteOf]; omega

theorem be16_join16 (a b : Byte) : be16 (join16 a b) = [a, b] := by
  simp [be16, extract_join16_hi, extract_join16_lo]

theorem be32_join32 (a b c d : Byte) : be32 (join32 a b c d) = [a, b, c, d] := by
  have := a.isLt; have := b.isLt; have := c.isLt; have := d.isLt
  have h (k : Nat) (x : Byte) (hk : (join32 a b c d).toNat / 2 ^ k % 256 = x.toNat) :
      (join32 a b c d).extractLsb' k 8 = x := BitVec.eq_of_toNat_eq (by rw [toNat_byteOf, hk])
  unfold be32
  rw [h 24 a, h 16 b, h 8 c, h 0 d] <;> rw [join32_toNat] <;> omega

@[simp] theorem be16_length (v : BitVec 16) : (be16 v).length = 2 := rfl

@[simp] theorem be32_length (v : BitVec 32) : (be32 v).length = 4 := rfl

@[simp] theorem frameHeader_length (a : BitVec 32) (ty : Byte) (l : BitVec 16) :
    (frameHeader a ty l).length = 9 := rfl

/-- A byte read inside the left part of a concatenation. -/
theorem byteAt_append_left {x y : Bytes} {i : Nat} (h : i < x.length) : byteAt (x ++ y) i = byteAt x i := by
  simp [byteAt, List.getD_eq_getElem?_getD, List.getElem?_append_left h]

/-- A byte read past the left part of a concatenation. -/
theorem byteAt_append_right {x y : Bytes} {i : Nat} (h : x.length ≤ i) :
    byteAt (x ++ y) i = byteAt y (i - x.length) := by
  simp [byteAt, List.getD_eq_getElem?_getD, List.getElem?_append_right h]

theorem slice_append_right {x y : Bytes} {n : Nat} : slice (x ++ y) x.length n = y.take n := by
  simp [slice]

theorem slice_length (s : Bytes) (a n : Nat) : (slice s a n).length = min n (s.length - a) := by
  simp [slice]

end Sys2Proof
end

