-- ==== Sys2Proof/Laws/Codec.lean ====
section
/-! SUPPORT. The codec: where the fields of a frame lie, when `ENC` and `DEC` succeed and with what, and that `DEC`
gives back what `ENC` wrote. -/

namespace Sys2Proof.Machine

open Sys2Proof

/-! ### The fields of a frame -/

@[simp] theorem frameOf_length (a : BitVec 32) (ty : Byte) (p : Bytes) :
    (frameOf a ty p).length = 11 + p.length := by
  simp [frameOf]
  omega

@[simp] theorem byteAt_frameOf_0 (a : BitVec 32) (ty : Byte) (p : Bytes) :
    byteAt (frameOf a ty p) 0 = startHi := rfl

@[simp] theorem byteAt_frameOf_1 (a : BitVec 32) (ty : Byte) (p : Bytes) :
    byteAt (frameOf a ty p) 1 = startLo := rfl

@[simp] theorem byteAt_frameOf_6 (a : BitVec 32) (ty : Byte) (p : Bytes) :
    byteAt (frameOf a ty p) 6 = ty := rfl

@[simp] theorem be32At_frameOf (a : BitVec 32) (ty : Byte) (p : Bytes) : be32At (frameOf a ty p) 2 = a :=
  join32_extract a

@[simp] theorem be16At_frameOf (a : BitVec 32) (ty : Byte) (p : Bytes) :
    be16At (frameOf a ty p) 7 = BitVec.ofNat 16 (p.length + 2) :=
  join16_extract _

@[simp] theorem slice_frameOf (a : BitVec 32) (ty : Byte) (p : Bytes) :
    slice (frameOf a ty p) 9 p.length = p := by
  have h : (9 : Nat) = (frameHeader a ty (BitVec.ofNat 16 (p.length + 2))).length := rfl
  rw [frameOf, List.append_assoc, h, slice_append_right]
  simp

theorem byteAt_frameOf_checksum (a : BitVec 32) (ty : Byte) (p : Bytes) (k : Nat) :
    byteAt (frameOf a ty p) (9 + p.length + k) =
      byteAt (be16 (csum16 ty (BitVec.ofNat 16 (p.length + 2)) p)) k := by
  unfold frameOf
  rw [byteAt_append_right (by simp)]
  congr 1
  simp

@[simp] theorem be16At_frameOf_checksum (a : BitVec 32) (ty : Byte) (p : Bytes) :
    be16At (frameOf a ty p) (9 + p.length) = csum16 ty (BitVec.ofNat 16 (p.length + 2)) p := by
  have h0 := byteAt_frameOf_checksum a ty p 0
  have h1 := byteAt_frameOf_checksum a ty p 1
  unfold be16At
  rw [Nat.add_zero] at h0
  rw [h0, h1]
  exact join16_extract _

theorem capOf_le (sel : BitVec 2) : capOf sel ≤ 256 := by
  revert sel
  decide

theorem capOf_ge (sel : BitVec 2) : 32 ≤ capOf sel := by
  revert sel
  decide

/-! ### When the codec succeeds -/

/-- Everything `ENC` can do when it succeeds (R101). -/
theorem encodePacket_ok {a : BitVec 32} {ty : Byte} {p f : Bytes} {outcap cap : Nat} :
    encodePacket a ty p outcap cap = .ok f ↔
      p.length ≤ cap ∧ 11 + p.length ≤ outcap ∧ f = frameOf a ty p := by
  unfold encodePacket
  split
  · simp; omega
  · split
    · simp; omega
    · simp only [Except.ok.injEq]
      constructor
      · rintro rfl
        exact ⟨by omega, by omega, rfl⟩
      · rintro ⟨-, -, rfl⟩
        rfl

/-- Everything `ENC` can do when it fails (R101): the one error is a frame error, for want of space. -/
theorem encodePacket_error {a : BitVec 32} {ty : Byte} {p : Bytes} {outcap cap : Nat} {e : OpError} :
    encodePacket a ty p outcap cap = .error e ↔
      (cap < p.length ∨ outcap < 11 + p.length) ∧ e = .frame .space := by
  unfold encodePacket
  split
  · simp [eq_comm]; tauto
  · split
    · simp [eq_comm]; intro _; right; omega
    · simp; omega

/-- Everything `DEC` can do when it succeeds (R104): every check has passed, and the packet is read from the
buffer. -/
theorem decodePacket_ok {buf : Bytes} {a : BitVec 32} {cap : Nat} {p : Packet} :
    decodePacket buf a cap = .ok p ↔
      11 ≤ buf.length ∧ byteAt buf 0 = startHi ∧ byteAt buf 1 = startLo ∧ be32At buf 2 = a ∧
      2 ≤ (be16At buf 7).toNat ∧ (be16At buf 7).toNat - 2 ≤ cap ∧ 9 + (be16At buf 7).toNat = buf.length ∧
      csum16 (byteAt buf 6) (be16At buf 7) (slice buf 9 ((be16At buf 7).toNat - 2)) =
        be16At buf (7 + (be16At buf 7).toNat) ∧
      p = { address := a, ptype := byteAt buf 6, length := be16At buf 7,
            payload := slice buf 9 ((be16At buf 7).toNat - 2) } := by
  unfold decodePacket
  split
  · simp; omega
  split
  · simp; tauto
  split
  · simp; tauto
  split
  · simp; omega
  split
  · simp; omega
  split
  · simp; tauto
  split
  · simp; tauto
  rename_i h1 h2 h3 h4 h5 h6 h7
  simp only [not_or, not_not] at h2 h3 h6 h7
  simp only [Except.ok.injEq]
  constructor
  · rintro rfl
    exact ⟨by omega, h2.1, h2.2, h3, by omega, by omega, h6, h7, rfl⟩
  · rintro ⟨-, -, -, -, -, -, -, -, rfl⟩
    rfl

/-- The errors of `DEC` are frame errors (R104, R173). -/
theorem decodePacket_error {buf : Bytes} {a : BitVec 32} {cap : Nat} {e : OpError}
    (h : decodePacket buf a cap = .error e) : ∃ c, e = .frame c := by
  unfold decodePacket at h
  repeat' split at h
  all_goals first | (cases h; exact ⟨_, rfl⟩) | cases h

/-- `DEC` either succeeds or ends in a frame error. -/
theorem decodePacket_cases (buf : Bytes) (a : BitVec 32) (cap : Nat) :
    (∃ p, decodePacket buf a cap = .ok p) ∨ ∃ c, decodePacket buf a cap = .error (.frame c) := by
  cases h : decodePacket buf a cap with
  | ok p => exact .inl ⟨p, rfl⟩
  | error e =>
    obtain ⟨c, rfl⟩ := decodePacket_error h
    exact .inr ⟨c, rfl⟩

/-- The packet of a decoded frame (R21): its payload is within the capacity and its length is payload and
checksum. -/
theorem decodePacket_payload {buf : Bytes} {a : BitVec 32} {cap : Nat} {p : Packet}
    (h : decodePacket buf a cap = .ok p) : p.payload.length ≤ cap ∧ p.length.toNat = p.payload.length + 2 := by
  obtain ⟨h1, -, -, -, h5, h6, h7, -, rfl⟩ := decodePacket_ok.1 h
  simp only [slice_length]
  omega

/-- `DEC` of a frame `ENC` writes (R106), under any capacity that admits the payload. -/
theorem decodePacket_frameOf {a : BitVec 32} {ty : Byte} {p : Bytes} {cap : Nat} (hp : p.length ≤ cap)
    (hcap : cap ≤ 65533) :
    decodePacket (frameOf a ty p) a cap =
      .ok { address := a, ptype := ty, length := BitVec.ofNat 16 (p.length + 2), payload := p } := by
  have hl : (BitVec.ofNat 16 (p.length + 2)).toNat = p.length + 2 := by
    simp only [BitVec.toNat_ofNat]
    omega
  rw [decodePacket_ok]
  simp only [be16At_frameOf, hl, frameOf_length, byteAt_frameOf_0, byteAt_frameOf_1, be32At_frameOf,
    byteAt_frameOf_6, Nat.add_sub_cancel, slice_frameOf]
  refine ⟨by omega, trivial, trivial, trivial, by omega, hp, by omega, ?_, trivial⟩
  rw [show 7 + (p.length + 2) = 9 + p.length by omega, be16At_frameOf_checksum]

/-! ### The receiver -/

/-- Everything `receiveFrame` can do when it succeeds (R147). -/
theorem receiveFrame_ok {a : BitVec 32} {cap : Nat} {f x : Bytes} {last : Bool} :
    receiveFrame a cap f = .ok (x, last) ↔
      ∃ p, decodePacket f a cap = .ok p ∧ p.payload = x ∧
        (if last then p.ptype = typeEndData else p.ptype = typeData) := by
  unfold receiveFrame
  cases decodePacket f a cap with
  | error e => simp
  | ok p =>
    have hne : typeData ≠ typeEndData := by decide
    simp only [Except.ok.injEq, exists_eq_left']
    cases last
    · split
      · simp_all
      · rename_i h
        have hiff : p.ptype ≠ typeEndData ↔ p.ptype = typeData := by
          refine ⟨fun hn => ?_, fun hd => hd ▸ hne⟩
          by_contra hd
          exact h ⟨hd, hn⟩
        simp [hiff]
    · split <;> simp_all

end Sys2Proof.Machine
end

