-- ==== Sys2Proof/Laws/Memory.lean ====
section
/-! SUPPORT. Sparse storage and the strings of `IN`: a read after a write, what a write leaves alone, and that every
operation keeps the canonical form. -/

namespace Sys2Proof.Machine

open Sys2Proof

/-! ### Keys and values -/

theorem Assoc.get_set {α : Type} (k k' : Nat) (v : α) (l : List (Nat × α)) :
    Assoc.get k' (Assoc.set k v l) = if k' = k then some v else Assoc.get k' l := by
  induction l with
  | nil => simp [Assoc.set, Assoc.get, eq_comm]
  | cons p rest ih =>
    obtain ⟨j, w⟩ := p
    unfold Assoc.set
    split
    · simp [Assoc.get, eq_comm]
    · split
      · subst_vars
        by_cases h : k' = j <;> simp [Assoc.get, h, eq_comm]
      · have hne : j ≠ k := by omega
        simp only [Assoc.get, ih]
        by_cases h : j = k'
        · subst h
          simp [hne]
        · simp [h]

@[simp] theorem Assoc.get_set_same {α : Type} (k : Nat) (v : α) (l : List (Nat × α)) :
    Assoc.get k (Assoc.set k v l) = some v := by
  simp [Assoc.get_set]

theorem Assoc.get_set_other {α : Type} {k k' : Nat} (h : k' ≠ k) (v : α) (l : List (Nat × α)) :
    Assoc.get k' (Assoc.set k v l) = Assoc.get k' l := by
  simp [Assoc.get_set, h]

theorem Assoc.mem_set {α : Type} {k : Nat} {v : α} {l : List (Nat × α)} {p : Nat × α}
    (h : p ∈ Assoc.set k v l) : p = (k, v) ∨ p ∈ l := by
  induction l with
  | nil => simpa [Assoc.set] using h
  | cons q rest ih =>
    obtain ⟨j, w⟩ := q
    unfold Assoc.set at h
    split at h
    · simpa using h
    · split at h
      · rcases List.mem_cons.1 h with h | h
        · exact .inl h
        · exact .inr (List.mem_cons_of_mem _ h)
      · rcases List.mem_cons.1 h with h | h
        · exact .inr (by simp [h])
        · rcases ih h with h | h
          · exact .inl h
          · exact .inr (List.mem_cons_of_mem _ h)

theorem Assoc.rising_set {α : Type} {k : Nat} {v : α} {l : List (Nat × α)} (h : Assoc.Rising l) :
    Assoc.Rising (Assoc.set k v l) := by
  induction l with
  | nil => simp [Assoc.set, Assoc.Rising]
  | cons q rest ih =>
    obtain ⟨j, w⟩ := q
    obtain ⟨hj, hrest⟩ := List.pairwise_cons.1 h
    unfold Assoc.set
    split
    · rename_i hk
      refine List.pairwise_cons.2 ⟨fun p hp => ?_, h⟩
      rcases List.mem_cons.1 hp with rfl | hp
      · exact hk
      · exact Nat.lt_trans hk (hj p hp)
    · split
      · subst_vars
        exact List.pairwise_cons.2 ⟨hj, hrest⟩
      · refine List.pairwise_cons.2 ⟨fun p hp => ?_, ih hrest⟩
        rcases Assoc.mem_set hp with rfl | hp
        · show j < k
          omega
        · exact hj p hp

theorem Assoc.get_mem {α : Type} {k : Nat} {v : α} {l : List (Nat × α)} (h : Assoc.get k l = some v) :
    (k, v) ∈ l := by
  induction l with
  | nil => cases h
  | cons q rest ih =>
    obtain ⟨j, w⟩ := q
    unfold Assoc.get at h
    split at h
    · cases h
      subst_vars
      exact List.mem_cons_self
    · exact List.mem_cons_of_mem _ (ih h)

theorem Assoc.set_ne_nil {α : Type} (k : Nat) (v : α) (l : List (Nat × α)) : Assoc.set k v l ≠ [] := by
  cases l with
  | nil => simp [Assoc.set]
  | cons q rest =>
    obtain ⟨j, w⟩ := q
    unfold Assoc.set
    split <;> [simp; (split <;> simp)]

/-! ### One string -/

theorem InStr.get_writeCells (cells : List Host.Cell) (j : Nat) (bytes : Bytes) (k : Nat) :
    Assoc.get k (InStr.writeCells cells j bytes) =
      if j ≤ k ∧ k < j + bytes.length then bytes[k - j]? else Assoc.get k cells := by
  induction bytes generalizing cells j with
  | nil =>
    have h : ¬(j ≤ k ∧ k < j) := by omega
    simp [InStr.writeCells, h]
  | cons b rest ih =>
    simp only [InStr.writeCells, ih, Assoc.get_set, List.length_cons]
    by_cases h1 : k = j
    · subst h1
      simp
    · by_cases h2 : j + 1 ≤ k ∧ k < j + 1 + rest.length
      · have h3 : j ≤ k ∧ k < j + (rest.length + 1) := by omega
        have h4 : k - j = (k - (j + 1)) + 1 := by omega
        rw [if_pos h2, if_pos h3, h4]
        simp
      · have h3 : ¬(j ≤ k ∧ k < j + (rest.length + 1)) := by omega
        rw [if_neg h2, if_neg h3, if_neg h1]

theorem InStr.rising_writeCells {cells : List Host.Cell} {j : Nat} {bytes : Bytes}
    (h : Assoc.Rising cells) : Assoc.Rising (InStr.writeCells cells j bytes) := by
  induction bytes generalizing cells j with
  | nil => exact h
  | cons b rest ih => exact ih (Assoc.rising_set h)

/-- A string whose bytes stand at its offsets reads back as those bytes. -/
theorem InStr.bytesFrom_of_get {cells : List Host.Cell} {bytes : Bytes} {j : Nat}
    (h : ∀ k < bytes.length, Assoc.get (j + k) cells = bytes[k]?) :
    InStr.bytesFrom cells j bytes.length = some bytes := by
  induction bytes generalizing j with
  | nil => rfl
  | cons b rest ih =>
    have h0 : Assoc.get j cells = some b := by simpa using h 0 (by simp)
    have hr : InStr.bytesFrom cells (j + 1) rest.length = some rest := by
      refine ih (fun k hk => ?_)
      have := h (k + 1) (by simpa using hk)
      simpa [Nat.add_assoc, Nat.add_comm 1 k] using this
    simp [InStr.bytesFrom, h0, hr]

/-- A whole string written is the string read. -/
@[simp] theorem InStr.read_put (x : InStr) (bytes : Bytes) : (x.put bytes).read = some bytes := by
  refine InStr.bytesFrom_of_get (fun k hk => ?_)
  simp only [InStr.put, InStr.get_writeCells]
  rw [if_pos (by omega)]
  simp

theorem InStr.length_bytesFrom {cells : List Host.Cell} {j n : Nat} {bytes : Bytes}
    (h : InStr.bytesFrom cells j n = some bytes) : bytes.length = n := by
  induction n generalizing j bytes with
  | zero => cases h; rfl
  | succ n ih =>
    unfold InStr.bytesFrom at h
    split at h
    · rename_i hr
      cases h
      simp [ih hr]
    · cases h

/-! ### The strings of `IN` -/

theorem Memory.str_setStr (m : Memory) (i k : Nat) (x : InStr) :
    (m.setStr i x).str k = if k = i then x else m.str k := by
  unfold Memory.str Memory.setStr
  by_cases h : k = i <;> simp [Assoc.get_set, h]

@[simp] theorem Memory.str_setStr_same (m : Memory) (i : Nat) (x : InStr) : (m.setStr i x).str i = x := by
  simp [Memory.str_setStr]

theorem Memory.str_setStr_other (m : Memory) {i k : Nat} (h : k ≠ i) (x : InStr) :
    (m.setStr i x).str k = m.str k := by
  simp [Memory.str_setStr, h]

@[simp] theorem Memory.setStr_inCount (m : Memory) (i : Nat) (x : InStr) : (m.setStr i x).inCount = m.inCount := rfl
@[simp] theorem Memory.setStr_out (m : Memory) (i : Nat) (x : InStr) : (m.setStr i x).out = m.out := rfl
@[simp] theorem Memory.setLen_inCount (m : Memory) (i n : Nat) : (m.setLen i n).inCount = m.inCount := rfl
@[simp] theorem Memory.setLen_out (m : Memory) (i n : Nat) : (m.setLen i n).out = m.out := rfl
@[simp] theorem Memory.setByte_inCount (m : Memory) (i j : Nat) (v : Byte) :
    (m.setByte i j v).inCount = m.inCount := rfl
@[simp] theorem Memory.setByte_out (m : Memory) (i j : Nat) (v : Byte) : (m.setByte i j v).out = m.out := rfl

@[simp] theorem Memory.append_inCount (m : Memory) (b : Bytes) : (m.append b).inCount = m.inCount + 1 := rfl
@[simp] theorem Memory.append_out (m : Memory) (b : Bytes) : (m.append b).out = m.out := rfl

theorem Memory.str_append (m : Memory) (b : Bytes) (k : Nat) :
    (m.append b).str k = if k = m.inCount then (m.str m.inCount).put b else m.str k :=
  Memory.str_setStr m m.inCount k _

/-- The string appended is the operand at the old count. -/
@[simp] theorem Memory.operand_append (m : Memory) (b : Bytes) : (m.append b).operand m.inCount = some b := by
  simp [Memory.operand, Memory.str_append]

/-- `str` looks at the storage of `IN` only. -/
@[simp] theorem Memory.str_withOut (m : Memory) (out : List Bytes) (i : Nat) :
    Memory.str { m with out := out } i = m.str i := rfl

@[simp] theorem Memory.str_withCount (m : Memory) (n i : Nat) :
    Memory.str { m with inCount := n } i = m.str i := rfl

/-! ### The canonical form -/

theorem Memory.rising_str {m : Memory} (h : m.wf) (i : Nat) : Assoc.Rising (m.str i).cells := by
  unfold Memory.str
  cases hg : Assoc.get i m.inStrs with
  | none => exact List.Pairwise.nil
  | some x => exact (h.2 _ (Assoc.get_mem hg)).1

theorem Memory.wf_setStr {m : Memory} {i : Nat} {x : InStr} (h : m.wf) (hx : Assoc.Rising x.cells)
    (hne : x.len ≠ none ∨ x.cells ≠ []) : (m.setStr i x).wf := by
  refine ⟨Assoc.rising_set h.1, fun p hp => ?_⟩
  rcases Assoc.mem_set hp with rfl | hp
  · exact ⟨hx, hne⟩
  · exact h.2 p hp

theorem Memory.wf_setLen {m : Memory} (h : m.wf) (i n : Nat) : (m.setLen i n).wf :=
  Memory.wf_setStr h (Memory.rising_str h i) (.inl (by simp))

theorem Memory.wf_setByte {m : Memory} (h : m.wf) (i j : Nat) (v : Byte) : (m.setByte i j v).wf :=
  Memory.wf_setStr h (Assoc.rising_set (Memory.rising_str h i)) (.inr (Assoc.set_ne_nil _ _ _))

theorem Memory.wf_append {m : Memory} (h : m.wf) (bytes : Bytes) : (m.append bytes).wf :=
  Memory.wf_setStr h (InStr.rising_writeCells (Memory.rising_str h _)) (.inl (by simp [InStr.put]))

theorem Memory.wf_withOut {m : Memory} (h : m.wf) (out : List Bytes) : Memory.wf { m with out := out } := h

theorem Memory.wf_withCount {m : Memory} (h : m.wf) (n : Nat) : Memory.wf { m with inCount := n } := h

theorem State.reset_mem_wf : State.reset.mem.wf := by decide

end Sys2Proof.Machine
end

