-- ==== Sys2Proof/Laws/Operands.lean ====
section
/-! SUPPORT. When each operation is accepted, and with which operands: one lemma per operation. -/

namespace Sys2Proof.Machine

open Sys2Proof

@[simp] theorem Reg.read_known {w : Nat} (v : BitVec w) : (Reg.known v).read = some v := rfl

theorem Reg.read_eq_some {w : Nat} {r : Reg w} {v : BitVec w} : r.read = some v ↔ r = Reg.known v := by
  obtain ⟨x, d⟩ := r
  cases d <;> simp [Reg.read, Reg.known]

theorem Reg.read_eq_none {w : Nat} {r : Reg w} : r.read = none ↔ r.defined = false := by
  obtain ⟨x, d⟩ := r
  cases d <;> simp [Reg.read]

theorem State.accepts_iff {s : State} {n b : Nat} :
    s.accepts n b = true ↔ s.seq = .idle ∧ s.roomFor n b = true := by
  simp [State.accepts]

/-- `CFG` is accepted exactly in `UNCONF`, with its operands written and a chunk length of at least 1 (R160,
R161). -/
theorem cfgOperands_eq_some {s : State} {c : Session} :
    cfgOperands s = some c ↔
      s.seq = .unconf ∧ s.args.address = Reg.known c.address ∧ s.args.chunk = Reg.known c.chunk ∧
      s.args.capsel = Reg.known c.capsel ∧ c.chunk ≠ 0 := by
  unfold cfgOperands
  obtain ⟨a, ch, k⟩ := c
  split
  · rename_i hs
    simp only [← Reg.read_eq_some]
    split
    · rename_i ha hc hk
      split
      · rename_i h0
        simp only [ha, hc, hk, hs, Option.some.injEq, reduceCtorEq, true_and, false_iff]
        rintro ⟨rfl, rfl, rfl, h⟩
        exact h h0
      · rename_i h0
        simp only [ha, hc, hk, hs, Option.some.injEq, Session.mk.injEq, true_and]
        constructor
        · rintro ⟨rfl, rfl, rfl⟩
          exact ⟨rfl, rfl, rfl, h0⟩
        · rintro ⟨rfl, rfl, rfl, -⟩
          exact ⟨rfl, rfl, rfl⟩
    · rename_i h
      simp only [reduceCtorEq, false_iff]
      rintro ⟨-, ha, hc, hk, -⟩
      exact h _ _ _ ha hc hk
  · rename_i hs
    simp [hs]

/-- What `ENC` samples, and when (R100, R165). -/
theorem encOperands_eq_some {s : State} {x : EncOperands} :
    encOperands s = some x ↔
      s.seq = .idle ∧ s.roomFor 1 (11 + s.cap) = true ∧ s.args.address = Reg.known x.address ∧
      s.args.ptype = Reg.known x.ptype ∧ s.args.outcap = Reg.known x.outcap ∧
      s.mem.operand 0 = some x.payload := by
  unfold encOperands
  obtain ⟨a, t, p, o⟩ := x
  simp only [← Reg.read_eq_some]
  by_cases hs : s.accepts 1 (11 + s.cap) = true
  · obtain ⟨h1, h2⟩ := State.accepts_iff.1 hs
    rw [if_pos hs]
    split
    · rename_i ha ht ho hp
      simp only [ha, ht, ho, hp, h1, h2, Option.some.injEq, EncOperands.mk.injEq, true_and]
      tauto
    · rename_i h
      simp only [reduceCtorEq, false_iff]
      rintro ⟨-, -, ha, ht, ho, hp⟩
      exact h _ _ _ _ ha ht ho hp
  · rw [if_neg hs]
    simp only [reduceCtorEq, false_iff]
    rintro ⟨h1, h2, -⟩
    exact hs (State.accepts_iff.2 ⟨h1, h2⟩)

/-- What `DEC` samples, and when (R103, R165). -/
theorem decOperands_eq_some {s : State} {x : DecOperands} :
    decOperands s = some x ↔
      s.seq = .idle ∧ s.roomFor 1 s.cap = true ∧ s.args.address = Reg.known x.expected ∧
      s.mem.operand 0 = some x.buffer := by
  unfold decOperands
  obtain ⟨b, a⟩ := x
  simp only [← Reg.read_eq_some]
  by_cases hs : s.accepts 1 s.cap = true
  · obtain ⟨h1, h2⟩ := State.accepts_iff.1 hs
    rw [if_pos hs]
    split
    · rename_i ha hb
      simp only [ha, hb, h1, h2, Option.some.injEq, DecOperands.mk.injEq, true_and]
      tauto
    · rename_i h
      simp only [reduceCtorEq, false_iff]
      rintro ⟨-, -, ha, hb⟩
      exact h _ _ ha hb
  · rw [if_neg hs]
    simp only [reduceCtorEq, false_iff]
    rintro ⟨h1, h2, -⟩
    exact hs (State.accepts_iff.2 ⟨h1, h2⟩)

/-- What `CMD` samples, and when (R120, R165). -/
theorem cmdOperands_eq_some {s : State} {x : CmdOperands} :
    cmdOperands s = some x ↔
      s.seq = .idle ∧ s.roomFor 1 (11 + s.cap) = true ∧ s.args.code = Reg.known x.code ∧
      s.mem.operand 0 = some x.params := by
  unfold cmdOperands
  obtain ⟨c, p⟩ := x
  simp only [← Reg.read_eq_some]
  by_cases hs : s.accepts 1 (11 + s.cap) = true
  · obtain ⟨h1, h2⟩ := State.accepts_iff.1 hs
    rw [if_pos hs]
    split
    · rename_i hc hp
      simp only [hc, hp, h1, h2, Option.some.injEq, CmdOperands.mk.injEq, true_and]
    · rename_i h
      simp only [reduceCtorEq, false_iff]
      rintro ⟨-, -, hc, hp⟩
      exact h _ _ hc hp
  · rw [if_neg hs]
    simp only [reduceCtorEq, false_iff]
    rintro ⟨h1, h2, -⟩
    exact hs (State.accepts_iff.2 ⟨h1, h2⟩)

/-- What `ACK` samples, and when (R124, R165). -/
theorem ackOperands_eq_some {s : State} {bytes : Bytes} :
    ackOperands s = some bytes ↔
      s.seq = .idle ∧ s.roomFor 1 s.cap = true ∧ s.mem.operand 0 = some bytes := by
  unfold ackOperands
  split
  · rename_i hs
    simp [State.accepts_iff.1 hs]
  · rename_i hs
    simp only [reduceCtorEq, false_iff]
    rintro ⟨h1, h2, -⟩
    exact hs (State.accepts_iff.2 ⟨h1, h2⟩)

/-- What `DTX` samples, and when (R140, R165). -/
theorem dtxOperands_eq_some {s : State} {data : Bytes} :
    dtxOperands s = some data ↔
      s.seq = .idle ∧ s.roomFor (ceilDiv data.length s.chunkMax) (11 + s.cap) = true ∧
      s.mem.operand 0 = some data := by
  unfold dtxOperands
  cases s.mem.operand 0 with
  | none => simp
  | some d =>
    by_cases hs : s.accepts (ceilDiv d.length s.chunkMax) (11 + s.cap) = true
    · simp only [hs, if_true, Option.some.injEq]
      constructor
      · rintro rfl
        exact ⟨(State.accepts_iff.1 hs).1, (State.accepts_iff.1 hs).2, rfl⟩
      · exact fun h => h.2.2
    · simp only [hs, if_false, Option.some.injEq, Bool.false_eq_true, reduceCtorEq, false_iff]
      rintro ⟨h1, h2, rfl⟩
      exact hs (State.accepts_iff.2 ⟨h1, h2⟩)

/-- What `DRX` samples, and when (R146, R165). -/
theorem drxOperands_eq_some {s : State} {frames : List Bytes} :
    drxOperands s = some frames ↔
      s.seq = .idle ∧ s.roomFor 1 (s.mem.inCount * s.cap) = true ∧ s.mem.operands = some frames := by
  unfold drxOperands
  split
  · rename_i hs
    simp [State.accepts_iff.1 hs]
  · rename_i hs
    simp only [reduceCtorEq, false_iff]
    rintro ⟨h1, h2, -⟩
    exact hs (State.accepts_iff.2 ⟨h1, h2⟩)

/-- As many strings are sampled as were asked for. -/
theorem Memory.length_stringsFrom {m : Memory} {i n : Nat} {frames : List Bytes}
    (h : m.stringsFrom i n = some frames) : frames.length = n := by
  induction n generalizing i frames with
  | zero => cases h; rfl
  | succ n ih =>
    unfold Memory.stringsFrom at h
    split at h
    · rename_i hr
      cases h
      simp [ih hr]
    · cases h

end Sys2Proof.Machine
end

