-- ==== Sys2Proof/Laws/PerInstr.lean ====
section
/-! SUPPORT. Facts proved constructor by constructor of `Instr`. -/

namespace Sys2Proof.Laws.EncodedSize

open Sys2Proof

/-- R81, R70, R74: an op word is one byte; a frame is its 9-byte header and `length` bytes more. -/
def Statement (i : Instr) : Prop :=
  i.wf = true →
    (encode i).length =
      match i with
      | .cfg => 1
      | .enc => 1
      | .dec => 1
      | .cmd => 1
      | .ack => 1
      | .dtx => 1
      | .drx => 1
      | .tCommand _ length _ => 9 + length.toNat
      | .tData _ length _ => 9 + length.toNat
      | .tAck _ length _ => 9 + length.toNat
      | .tEndData _ length _ => 9 + length.toNat

theorem cfg : Statement .cfg := fun _ => rfl

theorem enc : Statement .enc := fun _ => rfl

theorem dec : Statement .dec := fun _ => rfl

theorem cmd : Statement .cmd := fun _ => rfl

theorem ack : Statement .ack := fun _ => rfl

theorem dtx : Statement .dtx := fun _ => rfl

theorem drx : Statement .drx := fun _ => rfl

theorem tCommand (a : BitVec 32) (l : BitVec 16) (b : Bytes) : Statement (.tCommand a l b) := by
  intro h
  have hb : b.length = l.toNat := by simpa [Instr.wf] using h
  simp [encode, hb]

theorem tData (a : BitVec 32) (l : BitVec 16) (b : Bytes) : Statement (.tData a l b) := by
  intro h
  have hb : b.length = l.toNat := by simpa [Instr.wf] using h
  simp [encode, hb]

theorem tAck (a : BitVec 32) (l : BitVec 16) (b : Bytes) : Statement (.tAck a l b) := by
  intro h
  have hb : b.length = l.toNat := by simpa [Instr.wf] using h
  simp [encode, hb]

theorem tEndData (a : BitVec 32) (l : BitVec 16) (b : Bytes) : Statement (.tEndData a l b) := by
  intro h
  have hb : b.length = l.toNat := by simpa [Instr.wf] using h
  simp [encode, hb]

end Sys2Proof.Laws.EncodedSize
end

