-- ==== Sys2Proof/Laws/State.lean ====
section
/-! SUPPORT. One lemma per field per update of the state, so that no proof unfolds a record update. -/

namespace Sys2Proof.Machine

open Sys2Proof

/-! ### `State.deliver` -/

@[simp] theorem State.deliver_params (s : State) (r : Results) (out : List Bytes) : (s.deliver r out).params = s.params := rfl
@[simp] theorem State.deliver_seq (s : State) (r : Results) (out : List Bytes) : (s.deliver r out).seq = .idle := rfl
@[simp] theorem State.deliver_cfg (s : State) (r : Results) (out : List Bytes) : (s.deliver r out).cfg = s.cfg := rfl
@[simp] theorem State.deliver_args (s : State) (r : Results) (out : List Bytes) : (s.deliver r out).args = s.args := rfl
@[simp] theorem State.deliver_res (s : State) (r : Results) (out : List Bytes) : (s.deliver r out).res = r := rfl
@[simp] theorem State.deliver_mem (s : State) (r : Results) (out : List Bytes) : (s.deliver r out).mem = { s.mem with out := out } := rfl
@[simp] theorem State.deliver_run (s : State) (r : Results) (out : List Bytes) : (s.deliver r out).run = none := rfl
@[simp] theorem State.deliver_host (s : State) (r : Results) (out : List Bytes) : (s.deliver r out).host = s.host := rfl
@[simp] theorem State.deliver_readData (s : State) (r : Results) (out : List Bytes) : (s.deliver r out).readData = s.readData := rfl
@[simp] theorem State.deliver_draws (s : State) (r : Results) (out : List Bytes) : (s.deliver r out).draws = s.draws + 5 := rfl

/-! ### `State.openSession` -/

@[simp] theorem State.openSession_params (s : State) (c : Session) : (s.openSession c).params = s.params := rfl
@[simp] theorem State.openSession_seq (s : State) (c : Session) : (s.openSession c).seq = .idle := rfl
@[simp] theorem State.openSession_cfg (s : State) (c : Session) : (s.openSession c).cfg = c := rfl
@[simp] theorem State.openSession_args (s : State) (c : Session) : (s.openSession c).args = s.args := rfl
@[simp] theorem State.openSession_res (s : State) (c : Session) : (s.openSession c).res = s.res := rfl
@[simp] theorem State.openSession_mem (s : State) (c : Session) : (s.openSession c).mem = s.mem := rfl
@[simp] theorem State.openSession_run (s : State) (c : Session) : (s.openSession c).run = s.run := rfl
@[simp] theorem State.openSession_host (s : State) (c : Session) : (s.openSession c).host = s.host := rfl
@[simp] theorem State.openSession_readData (s : State) (c : Session) : (s.openSession c).readData = s.readData := rfl
@[simp] theorem State.openSession_draws (s : State) (c : Session) : (s.openSession c).draws = s.draws := rfl

/-! ### `State.start` -/

@[simp] theorem State.start_params (s : State) (r : Running) : (s.start r).params = s.params := rfl
@[simp] theorem State.start_seq (s : State) (r : Running) : (s.start r).seq = .busy := rfl
@[simp] theorem State.start_cfg (s : State) (r : Running) : (s.start r).cfg = s.cfg := rfl
@[simp] theorem State.start_args (s : State) (r : Running) : (s.start r).args = s.args := rfl
@[simp] theorem State.start_res (s : State) (r : Running) : (s.start r).res = s.res := rfl
@[simp] theorem State.start_mem (s : State) (r : Running) : (s.start r).mem = s.mem := rfl
@[simp] theorem State.start_run (s : State) (r : Running) : (s.start r).run = some r := rfl
@[simp] theorem State.start_host (s : State) (r : Running) : (s.start r).host = s.host := rfl
@[simp] theorem State.start_readData (s : State) (r : Running) : (s.start r).readData = s.readData := rfl
@[simp] theorem State.start_draws (s : State) (r : Running) : (s.start r).draws = s.draws := rfl

/-! ### `State.keepRunning` -/

@[simp] theorem State.keepRunning_params (s : State) (r : Running) : (s.keepRunning r).params = s.params := rfl
@[simp] theorem State.keepRunning_seq (s : State) (r : Running) : (s.keepRunning r).seq = s.seq := rfl
@[simp] theorem State.keepRunning_cfg (s : State) (r : Running) : (s.keepRunning r).cfg = s.cfg := rfl
@[simp] theorem State.keepRunning_args (s : State) (r : Running) : (s.keepRunning r).args = s.args := rfl
@[simp] theorem State.keepRunning_res (s : State) (r : Running) : (s.keepRunning r).res = s.res := rfl
@[simp] theorem State.keepRunning_mem (s : State) (r : Running) : (s.keepRunning r).mem = s.mem := rfl
@[simp] theorem State.keepRunning_run (s : State) (r : Running) : (s.keepRunning r).run = some r := rfl
@[simp] theorem State.keepRunning_host (s : State) (r : Running) : (s.keepRunning r).host = s.host := rfl
@[simp] theorem State.keepRunning_readData (s : State) (r : Running) : (s.keepRunning r).readData = s.readData := rfl
@[simp] theorem State.keepRunning_draws (s : State) (r : Running) : (s.keepRunning r).draws = s.draws := rfl

/-! ### `State.resetBlock` -/

@[simp] theorem State.resetBlock_params (s : State) : s.resetBlock.params = s.params := rfl
@[simp] theorem State.resetBlock_seq (s : State) : s.resetBlock.seq = State.reset.seq := rfl
@[simp] theorem State.resetBlock_cfg (s : State) : s.resetBlock.cfg = State.reset.cfg := rfl
@[simp] theorem State.resetBlock_args (s : State) : s.resetBlock.args = State.reset.args := rfl
@[simp] theorem State.resetBlock_res (s : State) : s.resetBlock.res = State.reset.res := rfl
@[simp] theorem State.resetBlock_mem (s : State) : s.resetBlock.mem = State.reset.mem := rfl
@[simp] theorem State.resetBlock_run (s : State) : s.resetBlock.run = State.reset.run := rfl
@[simp] theorem State.resetBlock_host (s : State) : s.resetBlock.host = s.host := rfl
@[simp] theorem State.resetBlock_readData (s : State) : s.resetBlock.readData = s.readData := rfl
@[simp] theorem State.resetBlock_draws (s : State) : s.resetBlock.draws = s.draws := rfl

/-! ### `State.withArgs` -/

@[simp] theorem State.withArgs_params (s : State) (a : Args) : (s.withArgs a).params = s.params := rfl
@[simp] theorem State.withArgs_seq (s : State) (a : Args) : (s.withArgs a).seq = s.seq := rfl
@[simp] theorem State.withArgs_cfg (s : State) (a : Args) : (s.withArgs a).cfg = s.cfg := rfl
@[simp] theorem State.withArgs_args (s : State) (a : Args) : (s.withArgs a).args = a := rfl
@[simp] theorem State.withArgs_res (s : State) (a : Args) : (s.withArgs a).res = s.res := rfl
@[simp] theorem State.withArgs_mem (s : State) (a : Args) : (s.withArgs a).mem = s.mem := rfl
@[simp] theorem State.withArgs_run (s : State) (a : Args) : (s.withArgs a).run = s.run := rfl
@[simp] theorem State.withArgs_host (s : State) (a : Args) : (s.withArgs a).host = s.host := rfl
@[simp] theorem State.withArgs_readData (s : State) (a : Args) : (s.withArgs a).readData = s.readData := rfl
@[simp] theorem State.withArgs_draws (s : State) (a : Args) : (s.withArgs a).draws = s.draws := rfl

/-! ### `State.withMem` -/

@[simp] theorem State.withMem_params (s : State) (m : Memory) : (s.withMem m).params = s.params := rfl
@[simp] theorem State.withMem_seq (s : State) (m : Memory) : (s.withMem m).seq = s.seq := rfl
@[simp] theorem State.withMem_cfg (s : State) (m : Memory) : (s.withMem m).cfg = s.cfg := rfl
@[simp] theorem State.withMem_args (s : State) (m : Memory) : (s.withMem m).args = s.args := rfl
@[simp] theorem State.withMem_res (s : State) (m : Memory) : (s.withMem m).res = s.res := rfl
@[simp] theorem State.withMem_mem (s : State) (m : Memory) : (s.withMem m).mem = m := rfl
@[simp] theorem State.withMem_run (s : State) (m : Memory) : (s.withMem m).run = s.run := rfl
@[simp] theorem State.withMem_host (s : State) (m : Memory) : (s.withMem m).host = s.host := rfl
@[simp] theorem State.withMem_readData (s : State) (m : Memory) : (s.withMem m).readData = s.readData := rfl
@[simp] theorem State.withMem_draws (s : State) (m : Memory) : (s.withMem m).draws = s.draws := rfl

/-! ### `State.withHost` -/

@[simp] theorem State.withHost_params (s : State) (h : List HostAct) : (s.withHost h).params = s.params := rfl
@[simp] theorem State.withHost_seq (s : State) (h : List HostAct) : (s.withHost h).seq = s.seq := rfl
@[simp] theorem State.withHost_cfg (s : State) (h : List HostAct) : (s.withHost h).cfg = s.cfg := rfl
@[simp] theorem State.withHost_args (s : State) (h : List HostAct) : (s.withHost h).args = s.args := rfl
@[simp] theorem State.withHost_res (s : State) (h : List HostAct) : (s.withHost h).res = s.res := rfl
@[simp] theorem State.withHost_mem (s : State) (h : List HostAct) : (s.withHost h).mem = s.mem := rfl
@[simp] theorem State.withHost_run (s : State) (h : List HostAct) : (s.withHost h).run = s.run := rfl
@[simp] theorem State.withHost_host (s : State) (h : List HostAct) : (s.withHost h).host = h := rfl
@[simp] theorem State.withHost_readData (s : State) (h : List HostAct) : (s.withHost h).readData = s.readData := rfl
@[simp] theorem State.withHost_draws (s : State) (h : List HostAct) : (s.withHost h).draws = s.draws := rfl

/-! ### `State.answer` -/

@[simp] theorem State.answer_params (s : State) (v : Nat) : (s.answer v).params = s.params := rfl
@[simp] theorem State.answer_seq (s : State) (v : Nat) : (s.answer v).seq = s.seq := rfl
@[simp] theorem State.answer_cfg (s : State) (v : Nat) : (s.answer v).cfg = s.cfg := rfl
@[simp] theorem State.answer_args (s : State) (v : Nat) : (s.answer v).args = s.args := rfl
@[simp] theorem State.answer_res (s : State) (v : Nat) : (s.answer v).res = s.res := rfl
@[simp] theorem State.answer_mem (s : State) (v : Nat) : (s.answer v).mem = s.mem := rfl
@[simp] theorem State.answer_run (s : State) (v : Nat) : (s.answer v).run = s.run := rfl
@[simp] theorem State.answer_host (s : State) (v : Nat) : (s.answer v).host = s.host := rfl
@[simp] theorem State.answer_readData (s : State) (v : Nat) : (s.answer v).readData = v := rfl
@[simp] theorem State.answer_draws (s : State) (v : Nat) : (s.answer v).draws = s.draws := rfl

/-! ### `State.answerFree` -/

@[simp] theorem State.answerFree_params (s : State) (w : Nat) : (s.answerFree w).params = s.params := rfl
@[simp] theorem State.answerFree_seq (s : State) (w : Nat) : (s.answerFree w).seq = s.seq := rfl
@[simp] theorem State.answerFree_cfg (s : State) (w : Nat) : (s.answerFree w).cfg = s.cfg := rfl
@[simp] theorem State.answerFree_args (s : State) (w : Nat) : (s.answerFree w).args = s.args := rfl
@[simp] theorem State.answerFree_res (s : State) (w : Nat) : (s.answerFree w).res = s.res := rfl
@[simp] theorem State.answerFree_mem (s : State) (w : Nat) : (s.answerFree w).mem = s.mem := rfl
@[simp] theorem State.answerFree_run (s : State) (w : Nat) : (s.answerFree w).run = s.run := rfl
@[simp] theorem State.answerFree_host (s : State) (w : Nat) : (s.answerFree w).host = s.host := rfl
@[simp] theorem State.answerFree_readData (s : State) (w : Nat) : (s.answerFree w).readData = ((Config.freeWord s.draws).setWidth w).toNat := rfl
@[simp] theorem State.answerFree_draws (s : State) (w : Nat) : (s.answerFree w).draws = s.draws + 1 := rfl

/-! ### `State.answerFreeCount` -/

@[simp] theorem State.answerFreeCount_params (s : State) : s.answerFreeCount.params = s.params := rfl
@[simp] theorem State.answerFreeCount_seq (s : State) : s.answerFreeCount.seq = s.seq := rfl
@[simp] theorem State.answerFreeCount_cfg (s : State) : s.answerFreeCount.cfg = s.cfg := rfl
@[simp] theorem State.answerFreeCount_args (s : State) : s.answerFreeCount.args = s.args := rfl
@[simp] theorem State.answerFreeCount_res (s : State) : s.answerFreeCount.res = s.res := rfl
@[simp] theorem State.answerFreeCount_mem (s : State) : s.answerFreeCount.mem = s.mem := rfl
@[simp] theorem State.answerFreeCount_run (s : State) : s.answerFreeCount.run = s.run := rfl
@[simp] theorem State.answerFreeCount_host (s : State) : s.answerFreeCount.host = s.host := rfl
@[simp] theorem State.answerFreeCount_readData (s : State) : s.answerFreeCount.readData = Config.freeCount s.draws := rfl
@[simp] theorem State.answerFreeCount_draws (s : State) : s.answerFreeCount.draws = s.draws + 1 := rfl

end Sys2Proof.Machine
end

