-- ==== Sys2Proof/Laws/Step.lean ====
section
/-! SUPPORT. What each meaning, each pass of the sequencer and each host action can do: one inversion lemma each. -/

namespace Sys2Proof.Machine

open Sys2Proof

/-! ### Handing a string over -/

/-- Everything `present` can do: the string is stored after the strings already there, or dropped. -/
theorem State.present_cases (s : State) (bytes : Bytes) :
    (s.seq ≠ .busy ∧ s.roomFor (s.mem.inCount + 1) bytes.length = true ∧
      s.present bytes = s.withMem (s.mem.append bytes)) ∨
    ((s.seq = .busy ∨ s.roomFor (s.mem.inCount + 1) bytes.length = false) ∧ s.present bytes = s) := by
  unfold State.present State.hostMayWrite
  by_cases h1 : s.seq = .busy
  · simp [h1]
  · by_cases h2 : s.roomFor (s.mem.inCount + 1) bytes.length = true
    · left
      simp [h1, h2]
    · right
      simp only [Bool.not_eq_true] at h2
      simp [h2]

@[simp] theorem State.present_params (s : State) (b : Bytes) : (s.present b).params = s.params := by
  rcases s.present_cases b with ⟨-, -, h⟩ | ⟨-, h⟩ <;> simp [h]

@[simp] theorem State.present_seq (s : State) (b : Bytes) : (s.present b).seq = s.seq := by
  rcases s.present_cases b with ⟨-, -, h⟩ | ⟨-, h⟩ <;> simp [h]

@[simp] theorem State.present_cfg (s : State) (b : Bytes) : (s.present b).cfg = s.cfg := by
  rcases s.present_cases b with ⟨-, -, h⟩ | ⟨-, h⟩ <;> simp [h]

@[simp] theorem State.present_args (s : State) (b : Bytes) : (s.present b).args = s.args := by
  rcases s.present_cases b with ⟨-, -, h⟩ | ⟨-, h⟩ <;> simp [h]

@[simp] theorem State.present_res (s : State) (b : Bytes) : (s.present b).res = s.res := by
  rcases s.present_cases b with ⟨-, -, h⟩ | ⟨-, h⟩ <;> simp [h]

@[simp] theorem State.present_out (s : State) (b : Bytes) : (s.present b).mem.out = s.mem.out := by
  rcases s.present_cases b with ⟨-, -, h⟩ | ⟨-, h⟩ <;> simp [h]

@[simp] theorem State.present_run (s : State) (b : Bytes) : (s.present b).run = s.run := by
  rcases s.present_cases b with ⟨-, -, h⟩ | ⟨-, h⟩ <;> simp [h]

@[simp] theorem State.present_host (s : State) (b : Bytes) : (s.present b).host = s.host := by
  rcases s.present_cases b with ⟨-, -, h⟩ | ⟨-, h⟩ <;> simp [h]

@[simp] theorem State.present_readData (s : State) (b : Bytes) : (s.present b).readData = s.readData := by
  rcases s.present_cases b with ⟨-, -, h⟩ | ⟨-, h⟩ <;> simp [h]

@[simp] theorem State.present_draws (s : State) (b : Bytes) : (s.present b).draws = s.draws := by
  rcases s.present_cases b with ⟨-, -, h⟩ | ⟨-, h⟩ <;> simp [h]

/-! ### Completion -/

/-- The result registers after a completion specify the status byte only beside a status error (R24). -/
def Results.statusOnlyOnError (r : Results) : Prop := r.status.defined = true → r.kind = .statusError

theorem Results.statusOnlyOnError_fresh (n : Nat) (k : ResKind) : (Results.fresh n k).statusOnlyOnError := by
  simp [Results.statusOnlyOnError, Results.fresh, Reg.free]

theorem Results.statusOnlyOnError_ofError (n : Nat) (e : OpError) : (Results.ofError n e).statusOnlyOnError := by
  cases e
  · exact Results.statusOnlyOnError_fresh n _
  · exact fun _ => rfl

/-- Completion with a string or an error: one delivery (R164, R178). -/
theorem State.deliverString_eq (s : State) (r : Except OpError Bytes) :
    ∃ res out, res.statusOnlyOnError ∧ s.deliverString r = s.deliver res out := by
  cases r with
  | ok x => exact ⟨_, _, Results.statusOnlyOnError_fresh _ _, rfl⟩
  | error e => exact ⟨_, _, Results.statusOnlyOnError_ofError _ e, rfl⟩

/-- Completion of `ENC`: one delivery (R100). -/
theorem State.deliverEnc_eq (s : State) (r : Except OpError Bytes) :
    ∃ res out, res.statusOnlyOnError ∧ s.deliverEnc r = s.deliver res out := by
  cases r with
  | ok x => exact ⟨Results.ofCount s.draws x.length, _, Results.statusOnlyOnError_fresh _ .ok, rfl⟩
  | error e => exact ⟨_, _, Results.statusOnlyOnError_ofError _ e, rfl⟩

/-- Completion of `DEC`: one delivery (R103). -/
theorem State.deliverDec_eq (s : State) (r : Except OpError Packet) :
    ∃ res out, res.statusOnlyOnError ∧ s.deliverDec r = s.deliver res out := by
  cases r with
  | ok p => exact ⟨Results.ofPacket s.draws p, _, Results.statusOnlyOnError_fresh _ .ok, rfl⟩
  | error e => exact ⟨_, _, Results.statusOnlyOnError_ofError _ e, rfl⟩

/-! ### The meanings -/

/-- Everything an instruction can do when it answers a next state: it is refused with no effect, `CFG` opens a
session, one of the six operations completes in one delivery, or a frame is handed over. -/
theorem exec_next {i : Instr} {s t : State} (h : exec i s = .next t) :
    t = s ∨ (i = .cfg ∧ ∃ c, cfgOperands s = some c ∧ t = s.openSession c) ∨
    (isOperation i = true ∧ s.seq = .idle ∧ ∃ r out, r.statusOnlyOnError ∧ t = s.deliver r out) ∨
    (isOperation i = false ∧ i ≠ .cfg ∧ t = s.present (encode i)) := by
  cases i with
  | cfg =>
    simp only [exec, execCfg] at h
    split at h <;> cases h
    · exact .inl rfl
    · rename_i c hc
      exact .inr (.inl ⟨rfl, c, hc, rfl⟩)
  | enc =>
    simp only [exec, execEnc] at h
    split at h <;> cases h
    · exact .inl rfl
    · rename_i x hx
      exact .inr (.inr (.inl ⟨rfl, (encOperands_eq_some.1 hx).1, s.deliverEnc_eq _⟩))
  | dec =>
    simp only [exec, execDec] at h
    split at h <;> cases h
    · exact .inl rfl
    · rename_i x hx
      exact .inr (.inr (.inl ⟨rfl, (decOperands_eq_some.1 hx).1, s.deliverDec_eq _⟩))
  | cmd =>
    simp only [exec, execCmd] at h
    split at h <;> cases h
    · exact .inl rfl
    · rename_i x hx
      exact .inr (.inr (.inl ⟨rfl, (cmdOperands_eq_some.1 hx).1, s.deliverString_eq _⟩))
  | ack =>
    simp only [exec, execAck] at h
    split at h <;> cases h
    · exact .inl rfl
    · rename_i x hx
      exact .inr (.inr (.inl ⟨rfl, (ackOperands_eq_some.1 hx).1, s.deliverString_eq _⟩))
  | dtx =>
    simp only [exec, execDtx] at h
    split at h
    · cases h
      exact .inl rfl
    · rename_i x hx
      split at h <;> cases h
      exact .inr (.inr (.inl
        ⟨rfl, (dtxOperands_eq_some.1 hx).1, _, _, Results.statusOnlyOnError_fresh _ .ok, rfl⟩))
  | drx =>
    simp only [exec, execDrx] at h
    split at h <;> cases h
    · exact .inl rfl
    · rename_i x hx
      exact .inr (.inr (.inl ⟨rfl, (drxOperands_eq_some.1 hx).1, s.deliverString_eq _⟩))
  | tCommand a l b => cases h; exact .inr (.inr (.inr ⟨rfl, by simp, rfl⟩))
  | tData a l b => cases h; exact .inr (.inr (.inr ⟨rfl, by simp, rfl⟩))
  | tAck a l b => cases h; exact .inr (.inr (.inr ⟨rfl, by simp, rfl⟩))
  | tEndData a l b => cases h; exact .inr (.inr (.inr ⟨rfl, by simp, rfl⟩))

/-! ### The sequencer -/

/-- Everything an issue can do: nothing, `CFG`, or start a run with the operands sampled. -/
theorem issue_next {i : Instr} {s t : State} (h : issue i s = .next t) :
    t = s ∨ (∃ c, cfgOperands s = some c ∧ t = s.openSession c) ∨
    ∃ r, sampled i s = some r ∧ t = s.start r := by
  have key : ∀ j, (Host.Outcome.next (issueSampled j s) : Host.Outcome State Fault Refusal) = .next t →
      t = s ∨ (∃ c, cfgOperands s = some c ∧ t = s.openSession c) ∨
      ∃ r, sampled j s = some r ∧ t = s.start r := by
    intro j hj
    cases hj
    unfold issueSampled
    split
    · exact .inl rfl
    · rename_i r hr
      exact .inr (.inr ⟨r, hr, rfl⟩)
  cases i with
  | cfg =>
    rcases exec_next (i := .cfg) h with h | ⟨-, h⟩ | ⟨h, -⟩ | ⟨-, h, -⟩
    · exact .inl h
    · exact .inr (.inl h)
    · cases h
    · exact absurd rfl h
  | enc => exact key _ h
  | dec => exact key _ h
  | cmd => exact key _ h
  | ack => exact key _ h
  | dtx => exact key _ h
  | drx => exact key _ h
  | tCommand a l b => cases h; exact .inl rfl
  | tData a l b => cases h; exact .inl rfl
  | tAck a l b => cases h; exact .inl rfl
  | tEndData a l b => cases h; exact .inl rfl

/-- Operands are sampled in `IDLE` only, and every cursor starts in range (R27, R163). -/
theorem sampled_eq_some {i : Instr} {s : State} {r : Running} (h : sampled i s = some r) :
    isOperation i = true ∧ s.seq = .idle ∧ r.cursorsIn := by
  cases i with
  | enc =>
    obtain ⟨x, hx, rfl⟩ := Option.map_eq_some_iff.1 h
    exact ⟨rfl, (encOperands_eq_some.1 hx).1, trivial⟩
  | dec =>
    obtain ⟨x, hx, rfl⟩ := Option.map_eq_some_iff.1 h
    exact ⟨rfl, (decOperands_eq_some.1 hx).1, trivial⟩
  | cmd =>
    obtain ⟨x, hx, rfl⟩ := Option.map_eq_some_iff.1 h
    exact ⟨rfl, (cmdOperands_eq_some.1 hx).1, trivial⟩
  | ack =>
    obtain ⟨x, hx, rfl⟩ := Option.map_eq_some_iff.1 h
    exact ⟨rfl, (ackOperands_eq_some.1 hx).1, trivial⟩
  | dtx =>
    obtain ⟨x, hx, rfl⟩ := Option.map_eq_some_iff.1 h
    exact ⟨rfl, (dtxOperands_eq_some.1 hx).1, by simp [Running.cursorsIn]⟩
  | drx =>
    obtain ⟨x, hx, rfl⟩ := Option.map_eq_some_iff.1 h
    exact ⟨rfl, (drxOperands_eq_some.1 hx).1, by simp [Running.cursorsIn]⟩
  | cfg => cases h
  | tCommand a l b => cases h
  | tData a l b => cases h
  | tAck a l b => cases h
  | tEndData a l b => cases h

/-- R165: an operation whose operands are not sampled is refused: nothing changes, waited for or not. -/
theorem refused_of_not_sampled {i : Instr} {s : State} (hi : isOperation i = true) (h : sampled i s = none) :
    exec i s = .next s ∧ issue i s = .next s := by
  cases i <;> simp [isOperation] at hi <;> simp [sampled] at h <;>
    simp [exec, issue, issueSampled, sampled, execEnc, execDec, execCmd, execAck, execDtx, execDrx, h]

/-- What an accepted operation answers when it goes on: the delivery of its pure function's result (R164). -/
theorem exec_of_sampled {i : Instr} {s t : State} (hi : isOperation i = true) (hs : sampled i s ≠ none)
    (h : exec i s = .next t) :
    (∃ x, i = .enc ∧ encOperands s = some x ∧
      t = s.deliverEnc (encodePacket x.address x.ptype x.payload x.outcap.toNat s.cap)) ∨
    (∃ x, i = .dec ∧ decOperands s = some x ∧ t = s.deliverDec (decodePacket x.buffer x.expected s.cap)) ∨
    (∃ x, i = .cmd ∧ cmdOperands s = some x ∧
      t = s.deliverString (buildCommand x.code x.params s.cfg.address s.cap s.params.stageSize)) ∨
    (∃ x, i = .ack ∧ ackOperands s = some x ∧
      t = s.deliverString (parseAck x s.cfg.address s.cap s.params.successSet)) ∨
    (∃ x, i = .dtx ∧ dtxOperands s = some x ∧ t = s.deliverFrames (splitData s.link x)) ∨
    (∃ x, i = .drx ∧ drxOperands s = some x ∧ t = s.deliverString (reassemble x s.cfg.address s.cap)) := by
  cases i <;> simp [isOperation] at hi <;> simp [sampled] at hs
  all_goals simp only [exec, execEnc, execDec, execCmd, execAck, execDtx, execDrx] at h
  all_goals split at h
  all_goals first | (rename_i hn; exact absurd hn hs) | skip
  all_goals rename_i x hx
  all_goals first | (cases h; simp [hx]) | (split at h <;> cases h; simp [hx])

/-- R164, R65: a delivery ends the operation and leaves its inputs alone. -/
theorem ended_deliver (s : State) (r : Results) (out : List Bytes) : Ended s (s.deliver r out) :=
  ⟨rfl, rfl, rfl, rfl, rfl, rfl, fun _ => rfl, fun _ _ => rfl, rfl, rfl⟩

theorem chunkSize_le (k : LinkConfig) (n off : Nat) : chunkSize k n off ≤ n - off := by
  unfold chunkSize
  omega

theorem senderPhase_emitting {k : LinkConfig} {n off : Nat}
    (h : senderPhase k n off = .emittingData ∨ senderPhase k n off = .emittingEndData) : off < n := by
  by_contra hn
  simp [senderPhase, hn] at h

/-- Everything a pass can do: the operation moves on with its cursors in range, or it completes. -/
theorem advance_next {r : Running} {s t : State} (h : advance r s = .next t) :
    (∃ r', t = s.keepRunning r' ∧ (r.cursorsIn → r'.cursorsIn)) ∨
    ∃ res out, res.statusOnlyOnError ∧ t = s.deliver res out := by
  have emit : ∀ data off stage frames, emitChunk data off stage frames s = .next t →
      ∃ r', t = s.keepRunning r' ∧ (off ≤ data.length → r'.cursorsIn) := by
    intro data off stage frames he
    unfold emitChunk at he
    split at he <;> cases he
    refine ⟨_, rfl, fun ho => ⟨?_, senderPhase_emitting⟩⟩
    have := chunkSize_le s.link data.length off
    omega
  match r with
  | .enc a ty p o => cases h; exact .inr (s.deliverEnc_eq _)
  | .dec b e => cases h; exact .inr (s.deliverDec_eq _)
  | .cmd c p none =>
    simp only [advance] at h
    split at h <;> cases h
    · exact .inl ⟨_, rfl, id⟩
    · exact .inr (s.deliverString_eq _)
  | .cmd c p (some f) => cases h; exact .inr (s.deliverString_eq _)
  | .ack b => cases h; exact .inr (s.deliverString_eq _)
  | .dtx data off .idle st fr =>
    cases h
    exact .inl ⟨_, rfl, fun hc => ⟨hc.1, senderPhase_emitting⟩⟩
  | .dtx data off .emittingData st fr =>
    obtain ⟨r', h1, h2⟩ := emit _ _ _ _ h
    exact .inl ⟨r', h1, fun hc => h2 hc.1⟩
  | .dtx data off .emittingEndData st fr =>
    obtain ⟨r', h1, h2⟩ := emit _ _ _ _ h
    exact .inl ⟨r', h1, fun hc => h2 hc.1⟩
  | .dtx data off .done st fr =>
    cases h
    exact .inr ⟨_, _, Results.statusOnlyOnError_fresh _ .ok, rfl⟩
  | .drx fr i .collecting acc =>
    cases h
    left
    unfold collectFrame
    split
    · exact ⟨_, rfl, id⟩
    · rename_i f hf
      have hi : i + 1 ≤ fr.length := (List.getElem?_eq_some_iff.1 hf).1
      split
      · exact ⟨_, rfl, id⟩
      · exact ⟨_, rfl, fun _ => hi⟩
      · exact ⟨_, rfl, fun _ => hi⟩
  | .drx fr i .complete acc => cases h; exact .inr (s.deliverString_eq _)
  | .drx fr i (.failed e) acc => cases h; exact .inr (s.deliverString_eq _)

/-- Everything the sequencer can do on its own. -/
theorem tick_next {s t : State} (h : tick s = .next t) :
    t = s ∨ (s.seq = .busy ∧ ∃ r, s.run = some r ∧ advance r s = .next t) := by
  unfold tick at h
  split at h
  · rename_i r h1 h2
    exact .inr ⟨h1, r, h2, h⟩
  · cases h
    exact .inl rfl

/-! ### The host -/

/-- A host write of `IN` within its bounds: a length, a byte or the count. -/
inductive InputWrite (s : State) : Memory → Prop
  | len (i n : Nat) (h : fits s.params.maxFrames (i + 1) = true) (hn : fits s.params.maxData n = true) :
      InputWrite s (s.mem.setLen i n)
  | byte (i j : Nat) (v : Byte) (h : fits s.params.maxFrames (i + 1) = true)
      (hj : fits s.params.maxData (j + 1) = true) : InputWrite s (s.mem.setByte i j v)
  | count (n : Nat) (h : fits s.params.maxFrames n = true) : InputWrite s { s.mem with inCount := n }

theorem State.answerOr_eq (s : State) (w v : Option Nat) :
    ∃ x n, s.answerOr w v = { s with readData := x, draws := n } := by
  unfold State.answerOr
  split <;> exact ⟨_, _, rfl⟩

theorem readRegister_eq (index : Nat) (s : State) :
    ∃ x n, readRegister index s = { s with readData := x, draws := n } := by
  unfold readRegister
  split
  · exact ⟨_, _, rfl⟩
  · exact s.answerOr_eq _ _

/-- What the host action `a` can do when it goes on, with the action that causes it. -/
inductive HostEffect (a : HostAct) (s t : State) : Prop
  | nothing (h : t = s)
  | executes (i : Instr) (ha : (∃ w, a = .operate w ∧ decodeOp w = .ok i) ∨ ∃ b, a = .carry b ∧ decodeFrame b = .ok i)
      (h : exec i s = .next t)
  | handsOver (bytes : Bytes) (h : t = s.present bytes)
  | resets (ha : a = .resetInput ∨ ∃ v, a = .writeReg 0x1A v) (h : t = s.resetBlock)
  | issues (v : Nat) (i : Instr) (ha : a = .writeReg 0x01 v) (hd : decodeOp (BitVec.ofNat 8 v) = .ok i)
      (h : issue i s = .next t)
  | writesArgs (args : Args) (hs : s.seq ≠ .busy) (h : t = s.withArgs args)
  | writesInput (m : Memory) (hs : s.seq ≠ .busy) (hm : InputWrite s m) (h : t = s.withMem m)
  | reads (v n : Nat) (h : t = { s with readData := v, draws := n })
  | runs (ha : a = .wait) (h : tick s = .next t)

/-- An op word that decodes to `CFG` is `0x01`, and every other one decodes to an operation. -/
theorem decodeOp_ok {w : Byte} {i : Instr} (h : decodeOp w = .ok i) :
    (w = 0x01 ∧ i = .cfg) ∨ (w ≠ 0x01 ∧ isOperation i = true) := by
  unfold decodeOp at h
  repeat' split at h
  all_goals first | (cases h; tauto) | cases h

/-- The index of `OP` and of `RESET`. -/
theorem regAt_op {index : Nat} (h : regAt index = some .op) : index = 0x01 := by
  unfold regAt at h
  split at h <;> first | rfl | cases h

theorem regAt_reset {index : Nat} (h : regAt index = some .reset) : index = 0x1A := by
  unfold regAt at h
  split at h <;> first | rfl | cases h

theorem writeArg_effect (a : HostAct) (f : Args → Args) (s : State) : HostEffect a s (writeArg f s) := by
  unfold writeArg State.hostMayWrite
  split
  · rename_i h
    exact .writesArgs _ (by simpa using h) rfl
  · exact .nothing rfl

theorem writeBuffer_effect {a : HostAct} {inBounds : Bool} {f : Memory → Memory} {s : State}
    (h : inBounds = true → InputWrite s (f s.mem)) : HostEffect a s (writeBuffer inBounds f s) := by
  unfold writeBuffer State.hostMayWrite
  split
  · rename_i hb
    simp only [Bool.and_eq_true] at hb
    exact .writesInput _ (by simpa using hb.1) (h hb.2) rfl
  · exact .nothing rfl

theorem answerOr_effect (a : HostAct) (s : State) (w v : Option Nat) : HostEffect a s (s.answerOr w v) := by
  obtain ⟨x, n, h⟩ := s.answerOr_eq w v
  exact .reads x n h

theorem writeNamed_effect {index : Nat} {r : RegName} {v : Nat} {s t : State} (hr : regAt index = some r)
    (h : writeNamed r v s = .next t) : HostEffect (.writeReg index v) s t := by
  cases r with
  | op =>
    simp only [writeNamed, issueWord] at h
    split at h
    · cases h; exact .nothing rfl
    · rename_i i hi
      exact .issues v i (by rw [regAt_op hr]) hi h
  | reset => cases h; exact .resets (.inr ⟨v, by rw [regAt_reset hr]⟩) rfl
  | argAddr => cases h; exact writeArg_effect _ _ s
  | argType => cases h; exact writeArg_effect _ _ s
  | argCode => cases h; exact writeArg_effect _ _ s
  | argChunk => cases h; exact writeArg_effect _ _ s
  | argCapsel => cases h; exact writeArg_effect _ _ s
  | argOutcap => cases h; exact writeArg_effect _ _ s
  | inCount => cases h; exact writeBuffer_effect (fun hb => .count v hb)
  | state => cases h; exact .nothing rfl
  | cfgAddr => cases h; exact .nothing rfl
  | cfgChunk => cases h; exact .nothing rfl
  | cfgCapsel => cases h; exact .nothing rfl
  | resKind => cases h; exact .nothing rfl
  | resStatus => cases h; exact .nothing rfl
  | resCount => cases h; exact .nothing rfl
  | resAddr => cases h; exact .nothing rfl
  | resType => cases h; exact .nothing rfl
  | resLen => cases h; exact .nothing rfl
  | outCount => cases h; exact .nothing rfl

/-- Everything a host action can do. -/
theorem hostAction_next {a : HostAct} {s t : State} (h : hostAction a s = .next t) : HostEffect a s t := by
  cases a with
  | operate w =>
    simp only [hostAction, operate] at h
    split at h
    · cases h; exact .nothing rfl
    · rename_i i hi
      exact .executes i (.inl ⟨w, rfl, hi⟩) h
  | carry bytes =>
    simp only [hostAction, carryBytes] at h
    split at h
    · cases h; exact .handsOver _ rfl
    · rename_i i hi
      exact .executes i (.inr ⟨bytes, rfl, hi⟩) h
  | relay k =>
    cases h
    unfold relayString
    split
    · exact .nothing rfl
    · exact .handsOver _ rfl
  | writeReg index v =>
    simp only [hostAction, writeRegister] at h
    split at h
    · cases h; exact .nothing rfl
    · rename_i r hr
      exact writeNamed_effect hr h
  | readReg index =>
    cases h
    obtain ⟨x, n, hx⟩ := readRegister_eq index s
    exact .reads x n hx
  | writeInLen i n =>
    cases h
    refine writeBuffer_effect (fun hb => ?_)
    simp only [Bool.and_eq_true] at hb
    exact .len i n hb.1 hb.2
  | writeIn i j v =>
    cases h
    refine writeBuffer_effect (fun hb => ?_)
    simp only [Bool.and_eq_true] at hb
    exact .byte i j v hb.1 hb.2
  | readInLen i => cases h; exact answerOr_effect _ s _ _
  | readIn i j => cases h; exact answerOr_effect _ s _ _
  | readOutLen k => cases h; exact answerOr_effect _ s _ _
  | readOut k j => cases h; exact answerOr_effect _ s _ _
  | resetInput => cases h; exact .resets (.inl rfl) rfl
  | wait => exact .runs rfl h

/-- Everything a step can do: a pass of the sequencer, or one host action on the state without it. -/
theorem step_next {s t : State} (h : step s = .next t) :
    (s.host = [] ∧ tick s = .next t) ∨ ∃ a rest, s.host = a :: rest ∧ HostEffect a (s.withHost rest) t := by
  unfold step turn at h
  split at h
  · rename_i hh
    exact .inl ⟨hh, h⟩
  · rename_i a rest hh
    exact .inr ⟨a, rest, hh, hostAction_next h⟩

end Sys2Proof.Machine
end

