-- ==== Sys2Proof/Tests/Slice0.lean ====
section
/-! SUPPORT. Tests with expected results from spec/95_test_vectors.md and from the spec's encodings, and a witness
for every statement that has hypotheses: a concrete state and operands that meet all of them together. -/

namespace Sys2Proof.Tests

open Sys2Proof Sys2Proof.Machine

/-! ### Helpers -/

/-- What a test looks at in the next state. -/
def ans {α : Type} (f : State → α) : Host.Outcome State Fault Refusal → Option α
  | .next t => some (f t)
  | .fault _ => none
  | .refused _ => none

/-- An idle session with address `0xFFFFFFFF`, some strings in `IN`, and no operand register written. -/
def session (chunk : BitVec 16) (sel : BitVec 2) (strings : List Bytes) : State :=
  { State.reset with
    seq := .idle
    cfg := { address := 0xFFFFFFFF, chunk := chunk, capsel := sel }
    mem := strings.foldl Memory.append State.reset.mem }

/-- A state with every operand register written. -/
def argsOf (a : BitVec 32) (ty code : Byte) (chunk : BitVec 16) (sel : BitVec 2) (outcap : BitVec 16) : Args :=
  { address := Reg.known a, ptype := Reg.known ty, code := Reg.known code, chunk := Reg.known chunk,
    capsel := Reg.known sel, outcap := Reg.known outcap }

/-- The frame `G` of spec/95_test_vectors.md: an acknowledge with the status byte 0. -/
def frameG : Bytes := [0xEF, 0x01, 0xFF, 0xFF, 0xFF, 0xFF, 0x07, 0x00, 0x03, 0x00, 0x00, 0x0A]

/-- The frames `F0`, `F1`, `F2` of section 2.7, those of row TV2. -/
def frame0 : Bytes := [0xEF, 0x01, 0xFF, 0xFF, 0xFF, 0xFF, 0x02, 0x00, 0x06, 0x01, 0x02, 0x03, 0x04, 0x00, 0x12]
/-- `F1`. -/
def frame1 : Bytes := [0xEF, 0x01, 0xFF, 0xFF, 0xFF, 0xFF, 0x02, 0x00, 0x06, 0x05, 0x06, 0x07, 0x08, 0x00, 0x22]
/-- `F2`. -/
def frame2 : Bytes := [0xEF, 0x01, 0xFF, 0xFF, 0xFF, 0xFF, 0x08, 0x00, 0x04, 0x09, 0x0A, 0x00, 0x1F]

/-- The data of row TV2. -/
def tenBytes : Bytes := [1, 2, 3, 4, 5, 6, 7, 8, 9, 10]

/-! ### Well-formedness -/

theorem test_wf_refuses_command : (Instr.tCommand 0 3 [0, 0]).wf = false := by decide
theorem test_wf_refuses_data : (Instr.tData 0 0 [0]).wf = false := by decide
theorem test_wf_refuses_ack : (Instr.tAck 0 2 []).wf = false := by decide
theorem test_wf_refuses_end_data : (Instr.tEndData 0 256 [1]).wf = false := by decide
theorem test_wf_accepts : (Instr.tAck 0 3 [0, 0, 10]).wf = true := by decide

/-! ### Decoding: words written out from R82, R70 to R74 -/

theorem test_decode_cfg : decode [0b00000001] = .ok (.cfg, []) := by decide
theorem test_decode_enc : decode [0b00000010] = .ok (.enc, []) := by decide
theorem test_decode_dec : decode [0b00000011] = .ok (.dec, []) := by decide
theorem test_decode_cmd : decode [0b00000100] = .ok (.cmd, []) := by decide
theorem test_decode_ack : decode [0b00000101] = .ok (.ack, []) := by decide
theorem test_decode_dtx : decode [0b00000110] = .ok (.dtx, []) := by decide
theorem test_decode_drx : decode [0b00000111, 0x99] = .ok (.drx, [0x99]) := by decide
/-- The frame of row CV1. -/
theorem test_decode_command :
    decode [0xEF, 0x01, 0xFF, 0xFF, 0xFF, 0xFF, 0x01, 0x00, 0x03, 0x01, 0x00, 0x05] =
      .ok (.tCommand 0xFFFFFFFF 3 [0x01, 0x00, 0x05], []) := by decide
theorem test_decode_data : decode frame0 = .ok (.tData 0xFFFFFFFF 6 [1, 2, 3, 4, 0x00, 0x12], []) := by decide
/-- The frame of row AV7, and a byte after it: the address and the length are big-endian. -/
theorem test_decode_ack_frame :
    decode [0xEF, 0x01, 0x00, 0x00, 0x00, 0x01, 0x07, 0x00, 0x03, 0x00, 0x00, 0x0A, 0x55] =
      .ok (.tAck 0x00000001 3 [0x00, 0x00, 0x0A], [0x55]) := by decide
theorem test_decode_end_data : decode frame2 = .ok (.tEndData 0xFFFFFFFF 4 [9, 10, 0x00, 0x1F], []) := by decide
theorem test_decode_rejects_no_bytes : decode [] = .error .noBytes := by decide
theorem test_decode_rejects_word_zero : decode [0x00] = .error (.reservedOp 0x00) := by decide
theorem test_decode_rejects_word_eight : decode [0x08] = .error (.reservedOp 0x08) := by decide
theorem test_decode_rejects_start : decode (frameG.set 1 0x02) = .error .badStart := by decide
theorem test_decode_rejects_type : decode (frameG.set 6 0x03) = .error (.reservedType 0x03) := by decide
theorem test_decode_rejects_short_header : decode (frameG.take 8) = .error .shortHeader := by decide
theorem test_decode_rejects_short_body : decode (frameG.take 11) = .error .shortBody := by decide
theorem test_decode_frame_rejects_trailing : decodeFrame (frameG ++ [0]) = .error .trailingBytes := by decide

/-! ### The checksum: rows K1, K2, K3, K7 -/

theorem test_csum_k1 : csum16 0x01 0x0003 [0x01] = 0x0005 := by decide
theorem test_csum_k2 : csum16 0x07 0x0002 [] = 0x0009 := by decide
theorem test_csum_k3 : csum16 0x08 0x0005 [0xAA, 0xBB, 0xCC] = 0x023E := by decide
theorem test_csum_k4 : csum16 0x08 0x0022 (List.replicate 32 0xFF) = 0x200A := by decide
theorem test_csum_k7 : csum16 0x02 0x0005 [3, 2, 1] = 0x000D := by decide

/-! ### Parameters (R7) -/

theorem test_params_default_legal : Config.Params.standard.legal = true := by decide
theorem test_params_small_max_data : { Config.Params.standard with maxData := some 266 }.legal = false := by decide

/-! ### CFG: rows YV4, YV3 -/

/-- Before a session, with every operand register written. -/
def fresh (chunk : BitVec 16) : State :=
  { State.reset with args := argsOf 0xFFFFFFFF 0x01 0x13 chunk 0 11 }

theorem test_cfg_yv4 :
    ans (fun t => (t.seq, t.cfg)) (exec .cfg (fresh 4)) =
      some (.idle, { address := 0xFFFFFFFF, chunk := 4, capsel := 0 }) := by decide
theorem test_cfg_yv3 : ans (fun t => t.seq) (exec .cfg (fresh 0)) = some .unconf := by decide

/-! ### ENC: rows EV3, EV2 with YV7 -/

/-- `ENC` of a payload: address, type, destination capacity, capacity code. -/
def encState (a : BitVec 32) (ty : Byte) (o : BitVec 16) (sel : BitVec 2) (p : Bytes) : State :=
  { session 4 sel [p] with args := argsOf a ty 0 4 sel o }

theorem test_enc_ev3 :
    ans (fun t => (t.res.kind, t.res.count, t.mem.out))
      (exec .enc (encState 0x12345678 0x01 17 1 [0x04, 0x01, 0x00, 0x00, 0x00, 0xA3])) =
      some (.ok, Reg.known 17,
        [[0xEF, 0x01, 0x12, 0x34, 0x56, 0x78, 0x01, 0x00, 0x08, 0x04, 0x01, 0x00, 0x00, 0x00, 0xA3,
          0x00, 0xB1]]) := by decide
theorem test_enc_yv7 :
    ans (fun t => (t.res.kind, t.mem.out))
      (exec .enc { encState 0 0x02 10 0 [] with mem := { (session 4 0 [[]]).mem with out := [[0x77]] } }) =
      some (.frameError, [[0x77]]) := by decide

/-! ### DEC: rows DV11, DV12 -/

/-- `DEC` of a buffer at `CAP = 32`. -/
def decState (expected : BitVec 32) (buffer : Bytes) : State :=
  { session 4 0 [buffer] with args := argsOf expected 0 0 4 0 0 }

theorem test_dec_dv11 :
    ans (fun t => (t.res.ptype, t.res.length, t.mem.out))
      (exec .dec (decState 0xFFFFFFFF
        [0xEF, 0x01, 0xFF, 0xFF, 0xFF, 0xFF, 0x55, 0x00, 0x04, 0x10, 0x20, 0x00, 0x89])) =
      some (Reg.known 0x55, Reg.known 4, [[0x10, 0x20]]) := by decide
theorem test_dec_dv12 :
    ans (fun t => (t.res.kind, t.mem.out))
      (exec .dec (decState 0xFFFFFFFF ((frameG.set 7 0xFF).set 8 0xFF))) = some (.frameError, []) := by decide

/-! ### CMD: rows CV2, CV6 -/

/-- `CMD` of a code and parameters at `CAP = 32`. -/
def cmdState (stage : Nat) (code : Byte) (params : Bytes) : State :=
  { session 4 0 [params] with
    args := argsOf 0 0 code 4 0 0, params := { Config.Params.standard with stageSize := stage } }

theorem test_cmd_cv2 :
    ans (fun t => (t.res.kind, t.mem.out)) (exec .cmd (cmdState 267 0x13 [0, 0, 0, 0])) =
      some (.ok, [[0xEF, 0x01, 0xFF, 0xFF, 0xFF, 0xFF, 0x01, 0x00, 0x07, 0x13, 0, 0, 0, 0, 0x00, 0x1B]]) := by
  decide
theorem test_cmd_cv6 :
    ans (fun t => (t.res.kind, t.mem.out)) (exec .cmd (cmdState 11 0x01 [])) = some (.frameError, []) := by decide

/-! ### ACK: rows AV2, AV3b -/

theorem test_ack_av2 :
    ans (fun t => (t.res.kind, t.mem.out))
      (exec .ack (session 4 0
        [[0xEF, 0x01, 0xFF, 0xFF, 0xFF, 0xFF, 0x07, 0x00, 0x07, 0x00, 0x00, 0x05, 0x00, 0x64, 0x00, 0x77]])) =
      some (.ok, [[0x00, 0x05, 0x00, 0x64]]) := by decide
theorem test_ack_av3b :
    ans (fun t => (t.res.kind, t.res.status, t.mem.out))
      (exec .ack (session 4 0
        [[0xEF, 0x01, 0xFF, 0xFF, 0xFF, 0xFF, 0x07, 0x00, 0x05, 0x09, 0x01, 0x02, 0x00, 0x18]])) =
      some (.statusError, Reg.known 0x09, []) := by decide

/-! ### DTX: rows TV2, TV8 -/

/-- `DTX` of data at `CAP = 32`. -/
def dtxState (stage : Nat) (chunk : BitVec 16) (data : Bytes) : State :=
  { session chunk 0 [data] with params := { Config.Params.standard with stageSize := stage } }

theorem test_dtx_tv2 :
    ans (fun t => (t.res.kind, t.mem.out)) (exec .dtx (dtxState 267 4 tenBytes)) =
      some (.ok, [frame0, frame1, frame2]) := by decide
theorem test_dtx_tv8 :
    ans (fun t => (t.res.kind, t.mem.out)) (exec .dtx (dtxState 14 4 tenBytes)) =
      some (.ok, [frame2]) := by decide

/-! ### DRX: rows XV3, XV5 -/

theorem test_drx_xv3 :
    ans (fun t => (t.res.kind, t.mem.out)) (exec .drx (session 4 0 [frame0, frame1, frame2, [1, 2, 3]])) =
      some (.ok, [tenBytes]) := by decide
theorem test_drx_xv5 :
    ans (fun t => (t.res.kind, t.mem.out)) (exec .drx (session 4 0 [frame0, frame1.set 14 0x23, frame2])) =
      some (.frameError, []) := by decide

/-! ### The frame headers -/

theorem test_command_frame_is_handed_over :
    ans (fun t => (t.mem.inCount, t.mem.operand 0)) (step (State.reset.withFetchWord 72 0xEF0112345678010001)) =
      some (1, some [0xEF, 0x01, 0x12, 0x34, 0x56, 0x78, 0x01, 0x00, 0x01, 0x00]) := by decide
theorem test_data_frame_is_handed_over :
    ans (fun t => t.mem.operands) (exec (.tData 0xFFFFFFFF 4 [9, 10, 0x00, 0x19]) (session 4 0 [frame0])) =
      some (some [frame0,
        [0xEF, 0x01, 0xFF, 0xFF, 0xFF, 0xFF, 0x02, 0x00, 0x04, 0x09, 0x0A, 0x00, 0x19]]) := by decide
theorem test_ack_frame_is_handed_over :
    ans (fun t => t.mem.operand 0) (exec (.tAck 0xFFFFFFFF 3 [0x00, 0x00, 0x0A]) (session 4 0 [])) =
      some (some frameG) := by decide
theorem test_end_data_frame_is_handed_over :
    ans (fun t => t.mem.operands) (exec (.tEndData 0xFFFFFFFF 4 [9, 10, 0x00, 0x1F]) (session 4 0 [frame0])) =
      some (some [frame0, frame2]) := by decide

/-! ### The host's port and the sequencer: rows YV1, YV6, YV9 -/

theorem test_yv1_state_reads_zero : ans (fun t => t.readData) (hostAction (.readReg 0x00) State.reset) = some 0 := by
  decide
theorem test_yv6_reserved_word : ans (fun t => t.seq) (hostAction (.writeReg 0x01 0xFF) (session 4 0 [])) =
    some .idle := by decide
theorem test_yv9_reset : ans (fun t => (t.seq, t.mem.inCount)) (hostAction (.writeReg 0x1A 1) (session 4 0 [[5]])) =
    some (.unconf, 0) := by decide
/-- A read of the reserved index 0x05 returns a value of no particular width (R25). -/
theorem test_reserved_index_reads_free :
    ans (fun t => t.readData) (hostAction (.readReg 0x05) State.reset) = some (Config.freeCount 0) := rfl
theorem test_issue_is_busy :
    ans (fun t => t.seq) (hostAction (.writeReg 0x01 0x06) (session 4 0 [tenBytes])) = some .busy := by decide

/-! ### Witnesses: reset and whole-machine rules -/

theorem wit_nothing_happens : State.reset.host = [] ∧ State.reset.seq ≠ .busy := by decide

/-- A session that is sending: the state in which every clause of the invariant says something. -/
def sending : State :=
  { session 4 0 [tenBytes] with seq := .busy, run := some (.dtx tenBytes 4 .emittingData frame0 [frame0]) }

theorem wit_invariant : sending.Inv where
  paramsLegal := by decide
  memWf := by decide
  countIn := by decide
  stringsIn := by
    intro p _
    exact ⟨rfl, fun _ _ => rfl, fun _ _ => rfl⟩
  outIn := by decide
  busyRuns := by decide
  chunkPos := by decide
  cursors := by
    intro r hr
    cases hr
    exact ⟨by decide, fun _ => by decide⟩
  resultFits := by
    intro r hr
    cases hr
    exact ⟨rfl, by decide, by decide⟩
  statusOnly := by decide

theorem wit_every_step : sending.Inv ∧ ∃ t, step sending = .next t := ⟨wit_invariant, _, rfl⟩
theorem wit_session_kept : ∃ t, step sending = .next t ∧ t.cfg = sending.cfg ∧ t.seq = sending.seq :=
  ⟨_, rfl, rfl, rfl⟩
theorem wit_session_opened : ∃ t, step ((fresh 4).withHost [.operate 0x01]) = .next t ∧
    t.cfg ≠ (fresh 4).cfg ∧ t.seq = .idle := ⟨_, rfl, by decide, rfl⟩
theorem wit_session_reset : ∃ t, step (sending.withHost [.resetInput]) = .next t ∧
    t.cfg ≠ sending.cfg ∧ t.seq = .unconf := ⟨_, rfl, by decide, rfl⟩
/-- `CFG` is accepted, written with and without waiting, and a value whose low 8 bits are its op word counts. -/
theorem wit_cfg_next : ((fresh 4).withHost [.operate 0x01]).CfgNext ⟨0xFFFFFFFF, 4, 0⟩ ∧
    ((fresh 4).withHost [.writeReg 0x01 0x101]).CfgNext ⟨0xFFFFFFFF, 4, 0⟩ :=
  ⟨⟨.inl rfl, by decide⟩, ⟨.inr ⟨0x101, rfl, by decide⟩, by decide⟩⟩
theorem wit_reset_next : (sending.withHost [.resetInput]).ResetNext ∧
    (sending.withHost [.writeReg 0x1A 0]).ResetNext := ⟨.inl rfl, .inr ⟨0, rfl⟩⟩
theorem wit_issue_next : ((session 4 0 [tenBytes]).withHost [.writeReg 0x01 0x06]).IssueNext
    (.dtx tenBytes 0 .idle [] []) := ⟨0x06, .dtx, rfl, by decide, by decide⟩
theorem wit_sequencer_issued : ∃ t, step ((session 4 0 [tenBytes]).withHost [.writeReg 0x01 0x06]) = .next t ∧
    t.seq = .busy := ⟨_, rfl, rfl⟩
theorem wit_sequencer_completed :
    ∃ t, step { sending with run := some (.dtx tenBytes 10 .done frame2 [frame0, frame1, frame2]) } = .next t ∧
      t.seq = .idle := ⟨_, rfl, rfl⟩

/-! ### Witnesses: CFG -/

theorem wit_cfg_opens : (fresh 1).seq = .unconf ∧ (fresh 1).args.address = Reg.known 0xFFFFFFFF ∧
    (fresh 1).args.chunk = Reg.known 1 ∧ (fresh 1).args.capsel = Reg.known 0 ∧ (1 : BitVec 16) ≠ 0 := by decide
theorem wit_cfg_refused_in_session : (session 4 0 []).seq ≠ .unconf := by decide
theorem wit_cfg_refused_chunk : (fresh 0).args.chunk.val = 0 := by decide
theorem wit_cfg_refused_unwritten : State.reset.args.address.defined = false ∧
    State.reset.args.chunk.defined = false ∧ State.reset.args.capsel.defined = false := by decide
theorem wit_nothing_runs : State.reset.seq = .unconf ∧ (0x00 : Byte) ≠ 0x01 ∧ (0x02 : Byte) ≠ 0x01 := by decide

/-! ### Witnesses: ENC -/

theorem wit_enc_writes_full : let p := List.replicate 32 (0xFF : Byte); let s := encState 0xFFFFFFFF 0x08 43 0 p
    s.seq = .idle ∧ s.roomFor 1 (11 + s.cap) = true ∧ s.args.address = Reg.known 0xFFFFFFFF ∧
    s.args.ptype = Reg.known 0x08 ∧ s.args.outcap = Reg.known 43 ∧ s.mem.operand 0 = some p ∧
    p.length ≤ s.cap ∧ 11 + p.length ≤ (43 : BitVec 16).toNat := by decide
theorem wit_enc_writes_empty : let s := encState 0 0x02 11 0 []
    s.seq = .idle ∧ s.roomFor 1 (11 + s.cap) = true ∧ s.args.address = Reg.known 0 ∧
    s.args.ptype = Reg.known 0x02 ∧ s.args.outcap = Reg.known 11 ∧ s.mem.operand 0 = some [] ∧
    11 ≤ (11 : BitVec 16).toNat := by decide
theorem wit_enc_above_capacity : let p := List.replicate 33 (0 : Byte); let s := encState 0xFFFFFFFF 0x02 100 0 p
    s.seq = .idle ∧ s.roomFor 1 (11 + s.cap) = true ∧ s.args.address = Reg.known 0xFFFFFFFF ∧
    s.args.ptype = Reg.known 0x02 ∧ s.args.outcap = Reg.known 100 ∧ s.mem.operand 0 = some p ∧
    s.cap < p.length := by decide
theorem wit_enc_destination_too_small : let s := encState 0 0x02 10 0 []
    s.seq = .idle ∧ s.roomFor 1 (11 + s.cap) = true ∧ s.args.address = Reg.known 0 ∧
    s.args.ptype = Reg.known 0x02 ∧ s.args.outcap = Reg.known 10 ∧ s.mem.operand 0 = some [] ∧
    (10 : BitVec 16).toNat < 11 := by decide
theorem wit_frame_map : encodePacket 0xFFFFFFFF 0x07 [0x00] 12 (capOf 0) = .ok frameG := by decide

/-! ### Witnesses: DEC -/

theorem wit_verifier : ∀ buf ∈ [frameG, frameG.set 11 0x0B],
    11 ≤ buf.length ∧ byteAt buf 0 = 0xEF ∧ byteAt buf 1 = 0x01 ∧ 2 ≤ (be16At buf 7).toNat ∧
    (be16At buf 7).toNat - 2 ≤ 32 ∧ 9 + (be16At buf 7).toNat = buf.length := by decide
theorem wit_verifier_equal : ((slice frameG 6 ((be16At frameG 7).toNat + 1)).map BitVec.toNat).sum % 65536 =
    (be16At frameG (7 + (be16At frameG 7).toNat)).toNat := by decide
theorem wit_verifier_unequal : let buf := frameG.set 11 0x0B
    ((slice buf 6 ((be16At buf 7).toNat + 1)).map BitVec.toNat).sum % 65536 ≠
      (be16At buf (7 + (be16At buf 7).toNat)).toNat := by decide
/-- Rows DV1 and DV10, the smallest frame. -/
theorem wit_dec_returns : ∀ x ∈ [((0xFFFFFFFF : BitVec 32), frameG),
      (0, [0xEF, 0x01, 0, 0, 0, 0, 0x02, 0x00, 0x02, 0x00, 0x04])],
    let buf := x.2; let s := decState x.1 x.2
    s.seq = .idle ∧ s.roomFor 1 s.cap = true ∧ s.args.address = Reg.known x.1 ∧ s.mem.operand 0 = some buf ∧
    11 ≤ buf.length ∧ byteAt buf 0 = 0xEF ∧ byteAt buf 1 = 0x01 ∧ be32At buf 2 = x.1 ∧
    2 ≤ (be16At buf 7).toNat ∧ (be16At buf 7).toNat - 2 ≤ s.cap ∧ 9 + (be16At buf 7).toNat = buf.length ∧
    csum16 (byteAt buf 6) (be16At buf 7) (slice buf 9 ((be16At buf 7).toNat - 2)) =
      be16At buf (7 + (be16At buf 7).toNat) := by decide
/-- Rows DV2, DV3b, DV3, DV5, DV12, DV7 and DV9. -/
theorem wit_dec_rejects : ∀ buf ∈ [frameG.take 10, frameG.set 0 0xEE, frameG.set 1 0x02, frameG.set 8 0x01,
      (frameG.set 7 0xFF).set 8 0xFF, frameG ++ [0], frameG.set 11 0x0B],
    let s := decState 0xFFFFFFFF buf
    s.seq = .idle ∧ s.roomFor 1 s.cap = true ∧ s.args.address = Reg.known 0xFFFFFFFF ∧
    s.mem.operand 0 = some buf := by decide
theorem wit_dec_rejects_short : (frameG.take 10).length < 11 := by decide
theorem wit_dec_rejects_start : byteAt (frameG.set 0 0xEE) 0 ≠ 0xEF ∧ byteAt (frameG.set 1 0x02) 1 ≠ 0x01 := by
  decide
theorem wit_dec_rejects_address : let s := decState 0xFFFFFFFE frameG
    s.seq = .idle ∧ s.roomFor 1 s.cap = true ∧ s.args.address = Reg.known 0xFFFFFFFE ∧
    s.mem.operand 0 = some frameG ∧ be32At frameG 2 ≠ 0xFFFFFFFE := by decide
theorem wit_dec_rejects_length : (be16At (frameG.set 8 0x01) 7).toNat < 2 ∧
    (decState 0xFFFFFFFF []).cap < (be16At ((frameG.set 7 0xFF).set 8 0xFF) 7).toNat - 2 ∧
    9 + (be16At (frameG ++ [0]) 7).toNat ≠ (frameG ++ [0]).length := by decide
theorem wit_dec_rejects_checksum : let buf := frameG.set 11 0x0B
    csum16 (byteAt buf 6) (be16At buf 7) (slice buf 9 ((be16At buf 7).toNat - 2)) ≠
      be16At buf (7 + (be16At buf 7).toNat) := by decide
theorem wit_enc_then_dec : let s := encState 0xFFFFFFFF 0x07 12 0 [0]; let u := decState 0xFFFFFFFF frameG
    (s.seq = .idle ∧ s.roomFor 1 (11 + s.cap) = true ∧ s.args.address = Reg.known 0xFFFFFFFF ∧
      s.args.ptype = Reg.known 0x07 ∧ s.args.outcap = Reg.known 12 ∧ s.mem.operand 0 = some [0] ∧
      1 ≤ s.cap ∧ 11 + 1 ≤ (12 : BitVec 16).toNat) ∧
    (u.seq = .idle ∧ u.cfg = s.cfg ∧ u.roomFor 1 u.cap = true ∧ u.args.address = Reg.known 0xFFFFFFFF) ∧
    ans (fun t => t.mem.out[0]?) (exec .enc s) = some (u.mem.operand 0) := by decide
theorem wit_single_byte : encodePacket 0xFFFFFFFF 0x07 [0] 12 (capOf 0) = .ok frameG ∧ 11 < frameG.length ∧
    byteAt frameG 11 ≠ 0x0B ∧ byteAt frameG 0 ≠ 0xEE := by decide
theorem wit_address_gating :
    decodePacket frameG 0xFFFFFFFF 1 = .ok { address := 0xFFFFFFFF, ptype := 0x07, length := 3, payload := [0] } ∧
    (0xFFFFFFFF : BitVec 32) ≠ 0xFFFFFFFE := by decide

/-! ### Witnesses: CMD and ACK -/

/-- Rows CV3 and CV4: 31 and 32 bytes of parameters. -/
theorem wit_cmd_builds : ∀ n ∈ [31, 32], let p := List.replicate n (0x1E : Byte); let s := cmdState 43 0xAB p
    s.seq = .idle ∧ s.roomFor 1 (11 + s.cap) = true ∧ s.args.code = Reg.known 0xAB ∧ s.mem.operand 0 = some p ∧
    12 + min p.length (s.cap - 1) ≤ s.params.stageSize := by decide
theorem wit_cmd_fails : let s := cmdState 11 0x01 []
    s.seq = .idle ∧ s.roomFor 1 (11 + s.cap) = true ∧ s.args.code = Reg.known 0x01 ∧ s.mem.operand 0 = some [] ∧
    s.params.stageSize < 12 + min 0 (s.cap - 1) := by decide

/-- The frames of rows AV1, AV3, AV4, AV5 and AV6: each outcome of `ACK`. -/
def ackInputs : List Bytes :=
  [frameG,
   [0xEF, 0x01, 0xFF, 0xFF, 0xFF, 0xFF, 0x07, 0x00, 0x03, 0x02, 0x00, 0x0C],
   [0xEF, 0x01, 0xFF, 0xFF, 0xFF, 0xFF, 0x07, 0x00, 0x02, 0x00, 0x09],
   [0xEF, 0x01, 0xFF, 0xFF, 0xFF, 0xFF, 0x01, 0x00, 0x03, 0x01, 0x00, 0x05],
   [0xEF, 0x01, 0xFF, 0xFF, 0xFF, 0xFF, 0x07, 0x00, 0x03, 0x02, 0x00, 0x0D]]

theorem wit_ack : ∀ b ∈ ackInputs, let s := session 4 0 [b]
    s.seq = .idle ∧ s.roomFor 1 s.cap = true ∧ s.mem.operand 0 = some b := by decide
theorem wit_ack_outcomes : ackInputs.map (fun b => ans (fun t => t.res.kind) (exec .ack (session 4 0 [b]))) =
    [some .ok, some .statusError, some .frameError, some .frameError, some .frameError] := by decide

/-! ### Witnesses: DTX and DRX -/

theorem wit_dtx_frames : let s := dtxState 267 4 tenBytes
    4 = min s.cfg.chunk.toNat s.cap ∧ 3 = (tenBytes.length + 4 - 1) / 4 ∧ s.seq = .idle ∧
    s.roomFor 3 (11 + s.cap) = true ∧ s.mem.operand 0 = some tenBytes ∧ s.cfg.chunk ≠ 0 := by decide
/-- No data, and a chunk length above the capacity. -/
theorem wit_dtx_no_data : let s := dtxState 267 40 []
    32 = min s.cfg.chunk.toNat s.cap ∧ 0 = (0 + 32 - 1) / 32 ∧ s.seq = .idle ∧
    s.roomFor 0 (11 + s.cap) = true ∧ s.mem.operand 0 = some [] ∧ s.cfg.chunk ≠ 0 := by decide
theorem wit_dtx_tags : let s := dtxState 15 4 tenBytes
    dtxOperands s = some tenBytes ∧ tenBytes ≠ [] ∧ 11 + s.chunkMax ≤ s.params.stageSize ∧
    ans (fun _ => true) (exec .dtx s) = some true := by decide
theorem wit_dtx_stuck : let s := dtxState 267 0 [5]
    dtxOperands s = some [5] ∧ [(5 : Byte)] ≠ [] ∧ s.cfg.chunk = 0 := by decide

theorem wit_data_frame (s : State) (h : s.cfg = (session 4 0 []).cfg) :
    ∃ q, decodePacket frame0 s.cfg.address s.cap = .ok q ∧ q.ptype = 0x02 ∧ q.payload = [1, 2, 3, 4] := by
  unfold State.cap
  rw [h]
  exact ⟨{ address := 0xFFFFFFFF, ptype := 0x02, length := 6, payload := [1, 2, 3, 4] }, by decide, rfl, rfl⟩
theorem wit_drx_examines : ∀ frame ∈ [frame2, frameG, frame2.set 12 0x20],
    let s := session 4 0 [frame0, frame, [1, 2, 3]]
    s.seq = .idle ∧ s.roomFor 1 (s.mem.inCount * s.cap) = true ∧
    s.mem.operands = some ([frame0] ++ frame :: [[1, 2, 3]]) := by decide
theorem wit_drx_examines_pre (s : State) (h : s.cfg = (session 4 0 []).cfg) :
    List.Forall₂ (fun f x => ∃ q, decodePacket f s.cfg.address s.cap = .ok q ∧ q.ptype = 0x02 ∧ q.payload = x)
      [frame0] [[1, 2, 3, 4]] := .cons (wit_data_frame s h) .nil
/-- The clause for an `end_data` frame, and the clause for frames of another type or that fail to decode. -/
theorem wit_drx_clauses :
    decodePacket frame2 0xFFFFFFFF 32 =
      .ok { address := 0xFFFFFFFF, ptype := 0x08, length := 4, payload := [9, 10] } ∧
    decodePacket frameG 0xFFFFFFFF 32 =
      .ok { address := 0xFFFFFFFF, ptype := 0x07, length := 3, payload := [0] } ∧
    decodePacket (frame2.set 12 0x20) 0xFFFFFFFF 32 = .error (.frame .csum) := by decide
theorem wit_drx_no_end : let s := session 4 0 [frame0]
    s.seq = .idle ∧ s.roomFor 1 (s.mem.inCount * s.cap) = true ∧ s.mem.operands = some [frame0] := by decide
theorem wit_drx_no_frames : let s := session 4 0 []
    s.seq = .idle ∧ s.roomFor 1 (s.mem.inCount * s.cap) = true ∧ s.mem.operands = some [] := by decide
theorem wit_dtx_then_drx : let s := dtxState 267 4 tenBytes; let u := session 4 0 [frame0, frame1, frame2]
    (dtxOperands s = some tenBytes ∧ s.cfg.chunk ≠ 0 ∧ 11 + s.chunkMax ≤ s.params.stageSize) ∧
    (u.seq = .idle ∧ u.cfg = s.cfg ∧ u.roomFor 1 (u.mem.inCount * u.cap) = true) ∧
    ans (fun t => some t.mem.out) (exec .dtx s) = some u.mem.operands := by decide

/-! ### Witnesses: frame headers and encodings -/

/-- A block with `MAX_FRAMES = 1` and `MAX_DATA = 267`. -/
def small (s : State) : State :=
  { s with params := { Config.Params.standard with maxFrames := some 1, maxData := some 267 } }

set_option maxRecDepth 4000 in
theorem wit_frame_becomes : ∀ i ∈ [Instr.tCommand 0 3 [1, 0, 5], .tData 0 2 [0, 4], .tAck 0 0 [],
      .tEndData 0 258 (List.replicate 258 0)],
    let s := small (session 4 0 [])
    s.seq ≠ .busy ∧ s.roomFor (s.mem.inCount + 1) (encode i).length = true := by decide
theorem wit_frame_dropped_busy : sending.seq = .busy := by decide
theorem wit_frame_dropped_full : let s := small (session 4 0 [[]])
    s.roomFor (s.mem.inCount + 1) (encode (.tAck 0 0 [])).length = false := by decide
set_option maxRecDepth 4000 in
theorem wit_frame_dropped_long : let s := small (session 4 0 [])
    s.roomFor (s.mem.inCount + 1) (encode (.tAck 0 259 (List.replicate 259 0))).length = false := by decide
theorem wit_handlers_ack : ∀ i ∈ [Instr.tCommand 0xFFFFFFFF 3 [1, 0, 5], .tData 0xFFFFFFFF 3 [0, 0, 5],
      .tEndData 0xFFFFFFFF 3 [0, 0, 0x0B]],
    let s := session 4 0 [encode i]
    s.seq = .idle ∧ s.roomFor 1 s.cap = true ∧ s.mem.operand 0 = some (encode i) := by decide
theorem wit_handlers_drx : ∀ i ∈ [Instr.tCommand 0xFFFFFFFF 3 [1, 0, 5], .tAck 0xFFFFFFFF 3 [0, 0, 0x0A]],
    let s := session 4 0 [encode i, frame2]
    s.seq = .idle ∧ s.roomFor 1 (s.mem.inCount * s.cap) = true ∧ s.mem.operands = some (encode i :: [frame2]) := by
  decide
theorem wit_encode_of_decode : decode (frame2 ++ [0x55]) = .ok (.tEndData 0xFFFFFFFF 4 [9, 10, 0, 0x1F], [0x55]) := by
  decide
theorem wit_reserved_words : (0x00 : Byte) = 0 ∧ 8 ≤ (0x08 : Byte).toNat ∧ 8 ≤ (0xFF : Byte).toNat := by decide
theorem wit_step_runs_op : ((session 4 0 []).withHost [.operate 0x07, .wait]).host = .operate 0x07 :: [.wait] ∧
    decodeOp 0x07 = .ok .drx := by decide
theorem wit_step_runs_frame : ((session 4 0 []).withHost [.carry frameG]).host = .carry frameG :: [] ∧
    decodeFrame frameG = .ok (.tAck 0xFFFFFFFF 3 [0, 0, 0x0A]) := by decide

/-! ### Witnesses: what operations leave alone, and when they are refused -/

theorem wit_operations_exec : isOperation .dtx = true ∧
    ans (fun t => t.seq) (exec .dtx (dtxState 267 4 tenBytes)) = some .idle := by decide
theorem wit_operations_issue : isOperation .dtx = true ∧
    ans (fun t => t.seq) (issue .dtx (dtxState 267 4 tenBytes)) = some .busy := by decide
theorem wit_operations_pass : ∃ t, tick sending = .next t := ⟨_, rfl⟩

theorem wit_refused_not_idle : isOperation .drx = true ∧ sending.seq ≠ .idle ∧ State.reset.seq ≠ .idle := by decide
theorem wit_refused_no_string : isOperation .ack = true ∧ Instr.ack ≠ .drx ∧ (session 4 0 []).mem.inCount = 0 := by
  decide
/-- A string of which the length, and one of which the last byte, has not been written. -/
theorem wit_refused_unwritten :
    ({ (session 4 0 []).mem with inCount := 1 }.str 0).len = none ∧
    (((session 4 0 [[7]]).mem.setLen 0 2).str 0).len = some 2 ∧
    Assoc.get 1 (((session 4 0 [[7]]).mem.setLen 0 2).str 0).cells = none := by decide
theorem wit_refused_unwritten_later : let m := { (session 4 0 [frame0]).mem with inCount := 2 }
    1 < m.inCount ∧ (m.str 1).len = none := by decide
theorem wit_refused_operands : let a := (session 4 0 [[]]).args
    a.address.defined = false ∧ a.ptype.defined = false ∧ a.outcap.defined = false ∧ a.code.defined = false := by
  decide
/-- A block with the least bounds, at the largest capacity: `DRX` of two strings does not fit. -/
theorem wit_refused_room : let s := { small (session 4 3 []) with
      params := { Config.Params.standard with maxFrames := some 2, maxData := some 267 },
      mem := (session 4 3 [frame0, frame2]).mem }
    s.roomFor 1 (s.mem.inCount * s.cap) = false := by decide
theorem wit_refused_room_dtx : let s := small (dtxState 267 4 tenBytes)
    s.mem.operand 0 = some tenBytes ∧
    s.roomFor ((tenBytes.length + s.chunkMax - 1) / s.chunkMax) (11 + s.cap) = false := by decide
/-- Below the least `MAX_DATA` of R7 (no run reaches it): the room of the other four operations. -/
theorem wit_refused_room_small :
    let s := { session 4 0 [[]] with params := { Config.Params.standard with maxData := some 31 } }
    s.roomFor 1 (11 + s.cap) = false ∧ s.roomFor 1 s.cap = false := by decide

/-- The same inputs after another operation's results. -/
def elsewhere (s : State) : State :=
  { s with res := { s.res with kind := .frameError }, mem := { s.mem with out := [[1], [2]] }, readData := 9 }

theorem wit_depends_on_inputs : let s := dtxState 267 4 tenBytes; let s' := elsewhere s
    isOperation .dtx = true ∧ s.params = s'.params ∧ s.seq = s'.seq ∧ s.cfg = s'.cfg ∧ s.args = s'.args ∧
    s.mem.inCount = s'.mem.inCount ∧ s.mem.inStrs = s'.mem.inStrs ∧ s.draws = s'.draws := by decide
theorem wit_depends_on_inputs_next : let s := dtxState 267 4 tenBytes
    (∃ t, exec .dtx s = .next t) ∧ ∃ t, exec .dtx (elsewhere s) = .next t := ⟨⟨_, rfl⟩, ⟨_, rfl⟩⟩
theorem wit_ends : sampled .ack (session 4 0 [ackInputs[1]]) ≠ none ∧
    ans (fun t => t.res.kind) (exec .ack (session 4 0 [ackInputs[1]])) = some .statusError := by decide
theorem wit_ends_cmd : sampled .cmd (cmdState 11 0x01 []) ≠ none ∧
    ans (fun t => t.res.kind) (exec .cmd (cmdState 11 0x01 [])) = some .frameError := by decide
theorem wit_ends_enc : sampled .enc (encState 0 0x02 10 0 []) ≠ none ∧
    ans (fun t => t.res.kind) (exec .enc (encState 0 0x02 10 0 [])) = some .frameError := by decide
theorem wit_out_bounds : (small (session 4 0 [frame2])).outIn = true ∧
    ans (fun t => t.mem.out) (exec .drx (small (session 4 0 [frame2]))) = some [[9, 10]] := by decide

/-! ### Witnesses: the host's port and the sequencer -/

theorem wit_host_reads_session : (session 4 0 []).seq ≠ .unconf ∧ (session 4 0 []).seq ≠ .busy := by decide
theorem wit_host_reads_results : ∃ t, exec .dec (decState 0xFFFFFFFF frameG) = .next t ∧ t.seq ≠ .busy ∧
    t.res.address = Reg.known 0xFFFFFFFF ∧ t.res.ptype = Reg.known 0x07 ∧ t.res.length = Reg.known 3 :=
  ⟨_, rfl, by decide, by decide, by decide, by decide⟩
theorem wit_host_reads_count : ∃ t, exec .enc (encState 0 0x02 11 0 []) = .next t ∧ t.seq ≠ .busy ∧
    t.res.count = Reg.known 11 := ⟨_, rfl, by decide, by decide⟩
theorem wit_host_reads_status : ∃ t, exec .ack (session 4 0 [ackInputs[1]]) = .next t ∧ t.seq ≠ .busy ∧
    t.res.status = Reg.known 0x02 := ⟨_, rfl, by decide, by decide⟩
theorem wit_host_reads_operands : (fresh 4).seq ≠ .busy ∧ (fresh 4).args = argsOf 0xFFFFFFFF 0x01 0x13 4 0 11 := by
  decide
/-- The last byte of a string of `IN` and of a string of `OUT`. -/
theorem wit_buffers_inside : let s := { sending with seq := .idle, mem := { sending.mem with out := [frame2] } }
    s.seq ≠ .busy ∧ 0 < s.mem.inCount ∧ (s.mem.str 0).len = some 10 ∧
    Assoc.get 9 (s.mem.str 0).cells = some 10 ∧ s.mem.out[0]? = some frame2 ∧ frame2[12]? = some 0x1F := by decide
/-- The first string and the first byte beyond them, a length and a byte that nothing has written. -/
theorem wit_buffers_beyond : let s := { (session 4 0 [[7]]) with mem := { (session 4 0 [[7]]).mem with out := [[5]] } }
    s.mem.inCount ≤ 1 ∧ (s.mem.str 1).len = none ∧ (s.mem.str 0).len = some 1 ∧
    Assoc.get 1 (s.mem.str 0).cells = none ∧ s.mem.out.length ≤ 1 ∧ s.mem.out[0]? = some [5] := by decide
theorem wit_transport_appends : let s := { small (session 4 0 []) with mem := { inCount := 0, inStrs := [], out := [frame2] } }
    s.seq ≠ .busy ∧ s.mem.out[0]? = some frame2 ∧ s.roomFor (s.mem.inCount + 1) frame2.length = true ∧
    s.roomFor (s.mem.inCount + 1) [(1 : Byte)].length = true ∧ s.mem.out.length ≤ 1 := by decide
theorem wit_transport_full : let s := { small (session 4 0 [[]]) with mem := { (session 4 0 [[]]).mem with out := [[]] } }
    s.seq ≠ .busy ∧ s.mem.out[0]? = some [] ∧ s.roomFor (s.mem.inCount + 1) 0 = false := by decide
theorem wit_operand_registers : (0x0C, 2) ∈ [(0x08, 32), (0x09, 8), (0x0A, 8), (0x0B, 16), (0x0C, 2), (0x0D, 16)] ∧
    State.reset.seq ≠ .busy := by decide
theorem wit_busy_drops : sending.seq = .busy ∧ (0x08 : Nat) ≠ 0x1A ∧ (0x18 : Nat) ≠ 0x1A := by decide
/-- The last string, byte, length and count within the bounds. -/
theorem wit_input_writes : let s := small State.reset
    s.seq ≠ .busy ∧ fits s.params.maxFrames (0 + 1) = true ∧ fits s.params.maxData (266 + 1) = true ∧
    fits s.params.maxData 267 = true ∧ fits s.params.maxFrames 1 = true := by decide
theorem wit_read_only : ∀ index ∈ [0x00, 0x02, 0x07, 0x0E, 0x10, 0x15, 0x19, 0x1B],
    index ∉ [0x01, 0x08, 0x09, 0x0A, 0x0B, 0x0C, 0x0D, 0x18, 0x1A] := by decide
theorem wit_issue_samples : decodeOp 0x06 = .ok .dtx ∧
    sampled .dtx (dtxState 267 4 tenBytes) = some (.dtx tenBytes 0 .idle [] []) := by decide
theorem wit_issued_run : (dtxState 267 4 tenBytes).seq ≠ .busy ∧ (dtxState 267 4 tenBytes).host = [] ∧
    decodeOp 0x06 = .ok .dtx := by decide
theorem wit_busy_ends : sending.Inv ∧ sending.seq = .busy ∧ sending.host = [] := ⟨wit_invariant, rfl, rfl⟩

end Sys2Proof.Tests
end

section
/-! The frame map of an encoded frame (spec/20_memory.md R57, spec/40_checksum.md R91), and that the six operations
leave their inputs alone (R65). -/

namespace Sys2Proof.Machine

open Sys2Proof

/-! ### The frame map -/

/-- The address lies in bytes 2 to 5, most significant byte first (R57). -/
theorem byteAt_frameOf_address (a : BitVec 32) (ty : Byte) (p : Bytes) :
    byteAt (frameOf a ty p) 2 = a.extractLsb' 24 8 ∧ byteAt (frameOf a ty p) 3 = a.extractLsb' 16 8 ∧
    byteAt (frameOf a ty p) 4 = a.extractLsb' 8 8 ∧ byteAt (frameOf a ty p) 5 = a.extractLsb' 0 8 :=
  ⟨rfl, rfl, rfl, rfl⟩

/-- The length lies in bytes 7 and 8, high byte first (R57). -/
theorem byteAt_frameOf_lengthField (a : BitVec 32) (ty : Byte) (p : Bytes) :
    byteAt (frameOf a ty p) 7 = (BitVec.ofNat 16 (p.length + 2)).extractLsb' 8 8 ∧
    byteAt (frameOf a ty p) 8 = (BitVec.ofNat 16 (p.length + 2)).extractLsb' 0 8 :=
  ⟨rfl, rfl⟩

/-- The length field of a frame whose payload is within a session's capacity counts payload and checksum: it does
not wrap. -/
theorem lengthField_toNat_of_le_capOf {p : Bytes} {sel : BitVec 2} (hp : p.length ≤ capOf sel) :
    (BitVec.ofNat 16 (p.length + 2)).toNat = p.length + 2 := by
  have hcap := capOf_le sel
  rw [BitVec.toNat_ofNat]
  omega

/-- Settles O15: a frame `ENC` returns is `frameOf`, whose fields the frame lemmas give one by one; the capacity keeps
the length field from wrapping. -/
theorem frameMapOfEncodedFrames : Obligations.FrameMapOfEncodedFrames := by
  intro a ty p f outcap sel h
  obtain ⟨hp, -, rfl⟩ := encodePacket_ok.1 h
  have hL : (be16At (frameOf a ty p) 7).toNat = p.length + 2 := by
    rw [be16At_frameOf, lengthField_toNat_of_le_capOf hp]
  have hsize : (frameOf a ty p).length = 9 + (be16At (frameOf a ty p) 7).toNat := by
    rw [frameOf_length, hL]
    omega
  have hcsumLo : byteAt (frameOf a ty p) (10 + p.length) =
      (csum16 ty (BitVec.ofNat 16 (p.length + 2)) p).extractLsb' 0 8 := by
    rw [show 10 + p.length = 9 + p.length + 1 by omega]
    exact byteAt_frameOf_checksum a ty p 1
  obtain ⟨h2, h3, h4, h5⟩ := byteAt_frameOf_address a ty p
  obtain ⟨h7, h8⟩ := byteAt_frameOf_lengthField a ty p
  exact ⟨frameOf_length a ty p, hsize, byteAt_frameOf_0 a ty p, byteAt_frameOf_1 a ty p, h2, h3, h4, h5,
    byteAt_frameOf_6 a ty p, h7, h8, hL, slice_frameOf a ty p, byteAt_frameOf_checksum a ty p 0, hcsumLo⟩

/-! ### Inputs left alone -/

theorem keepsInputs_refl (s : State) : KeepsInputs s s :=
  ⟨rfl, rfl, rfl, rfl, fun _ => rfl, fun _ _ => rfl, rfl, rfl⟩

theorem keepsInputs_start (s : State) (r : Running) : KeepsInputs s (s.start r) :=
  ⟨rfl, rfl, rfl, rfl, fun _ => rfl, fun _ _ => rfl, rfl, rfl⟩

theorem keepsInputs_keepRunning (s : State) (r : Running) : KeepsInputs s (s.keepRunning r) :=
  ⟨rfl, rfl, rfl, rfl, fun _ => rfl, fun _ _ => rfl, rfl, rfl⟩

/-- R65, as one atomic step: an operation is refused, or it ends in one delivery. -/
theorem exec_keepsInputs {i : Instr} {s t : State} (hi : isOperation i = true) (h : exec i s = .next t) :
    KeepsInputs s t := by
  rcases exec_next h with rfl | ⟨rfl, -⟩ | ⟨-, -, r, out, -, rfl⟩ | ⟨hframe, -⟩
  · exact keepsInputs_refl _
  · cases hi
  · exact (ended_deliver s r out).keeps
  · cases hi.symm.trans hframe

/-- R163: the issue of one of the six operations is answered by `issueSampled`. -/
theorem issue_of_isOperation {i : Instr} (hi : isOperation i = true) (s : State) :
    issue i s = .next (issueSampled i s) := by
  cases i with
  | enc | dec | cmd | ack | dtx | drx => rfl
  | cfg | tCommand | tData | tAck | tEndData => cases hi

theorem issueSampled_keepsInputs (i : Instr) (s : State) : KeepsInputs s (issueSampled i s) := by
  unfold issueSampled
  split
  · exact keepsInputs_refl s
  · exact keepsInputs_start s _

/-- R65, at the issue: an operation is refused, or its operands are sampled and it is `BUSY`. -/
theorem issue_keepsInputs {i : Instr} {s t : State} (hi : isOperation i = true) (h : issue i s = .next t) :
    KeepsInputs s t := by
  rw [issue_of_isOperation hi] at h
  cases h
  exact issueSampled_keepsInputs i s

/-- R65, in any pass: the operation moves on, or it ends in one delivery. -/
theorem advance_keepsInputs {r : Running} {s t : State} (h : advance r s = .next t) : KeepsInputs s t := by
  rcases advance_next h with ⟨r', rfl, -⟩ | ⟨res, out, -, rfl⟩
  · exact keepsInputs_keepRunning s r'
  · exact (ended_deliver s res out).keeps

/-- R65, when the host does nothing: nothing happens, or the running operation makes a pass. -/
theorem tick_keepsInputs {s t : State} (h : tick s = .next t) : KeepsInputs s t := by
  rcases tick_next h with rfl | ⟨-, r, -, hr⟩
  · exact keepsInputs_refl _
  · exact advance_keepsInputs hr

/-- Settles O41: an operation is refused, samples its operands, moves on or ends in one delivery, and none of these
touches an input. -/
theorem operationsKeepTheirInputs : Obligations.OperationsKeepTheirInputs :=
  ⟨fun _ _ _ => exec_keepsInputs, fun _ _ _ => issue_keepsInputs, fun _ _ => tick_keepsInputs⟩

end Sys2Proof.Machine
end

section
/-! Address gating (spec/41_codec.md R108): the address a buffer carries decides which expected address `DEC` accepts
it with. -/

namespace Sys2Proof.Machine

open Sys2Proof

/-- R104: an accepted buffer carries the expected address in bytes 2 to 5. -/
theorem be32At_of_decodePacket_ok {buf : Bytes} {a : BitVec 32} {cap : Nat} {p : Packet}
    (h : decodePacket buf a cap = .ok p) : be32At buf 2 = a := by
  obtain ⟨-, -, -, haddr, -⟩ := decodePacket_ok.1 h
  exact haddr

/-- The packet of an accepted buffer has the address the buffer carries. -/
theorem address_of_decodePacket_ok {buf : Bytes} {a : BitVec 32} {cap : Nat} {p : Packet}
    (h : decodePacket buf a cap = .ok p) : p.address = be32At buf 2 := by
  obtain ⟨-, -, -, haddr, -, -, -, -, rfl⟩ := decodePacket_ok.1 h
  exact haddr.symm

/-- Settles O22: if the frame were accepted with the other address too, the bytes of its address field would be both
addresses. -/
theorem addressGating : Obligations.AddressGating := by
  intro a expected frame cap cap' p h hne
  rcases decodePacket_cases frame expected cap' with ⟨q, hq⟩ | herror
  · have hsame : p.address = expected :=
      (address_of_decodePacket_ok h).trans (be32At_of_decodePacket_ok hq)
    exact absurd hsame hne
  · exact herror

end Sys2Proof.Machine
end

section
/-! When `ACK` reports a status error (spec/60_exceptions.md R175): an acknowledge frame is valid when it decodes with
the session address, has type `0x07` and carries a status byte. -/

namespace Sys2Proof.Machine

open Sys2Proof

/-- Everything `ACK` can make of received bytes (R125): a frame error when the frame is invalid, and otherwise what
its status byte says. -/
theorem parseAck_cases (bytes : Bytes) (a : BitVec 32) (cap : Nat) (successSet : List Byte) :
    ((∀ p, decodePacket bytes a cap = .ok p → p.ptype ≠ typeAck ∨ p.payload = []) ∧
      ∃ c, parseAck bytes a cap successSet = .error (.frame c)) ∨
    ∃ p status rest, decodePacket bytes a cap = .ok p ∧ p.ptype = typeAck ∧ p.payload = status :: rest ∧
      parseAck bytes a cap successSet = if status ∈ successSet then .ok rest else .error (.status status) := by
  unfold parseAck
  rcases decodePacket_cases bytes a cap with ⟨p, hp⟩ | ⟨c, hc⟩
  · simp only [hp, Except.ok.injEq, forall_eq', exists_and_left, exists_eq_left']
    by_cases htype : p.ptype = typeAck
    · cases hpayload : p.payload with
      | nil => exact .inl ⟨.inr rfl, .empty, by simp [classifyAck, htype, hpayload]⟩
      | cons status rest => exact .inr ⟨htype, status, rest, rfl, by simp [classifyAck, htype, hpayload]⟩
    · exact .inl ⟨.inl htype, .ptype, by simp [classifyAck, htype]⟩
  · exact .inl ⟨by simp [hc], c, by simp [hc]⟩

/-- An accepted `ACK` delivers what it makes of the received bytes (R124). -/
theorem exec_ack_of_accepted {s : State} {bytes : Bytes} (hidle : s.seq = .idle)
    (hroom : s.roomFor 1 s.cap = true) (hbytes : s.mem.operand 0 = some bytes) :
    exec .ack s = .next (s.deliverString (parseAck bytes s.cfg.address s.cap s.params.successSet)) := by
  have haccepted := ackOperands_eq_some.2 ⟨hidle, hroom, hbytes⟩
  simp only [exec, execAck, haccepted]

/-- R178: a frame error is delivered as `FRAME_ERROR`. -/
@[simp] theorem State.deliverString_frame_kind (s : State) (c : FrameCause) :
    (s.deliverString (.error (.frame c))).res.kind = .frameError := rfl

/-- R171, R178: a status error is delivered with its status byte. -/
@[simp] theorem State.deliverString_status_status (s : State) (v : Byte) :
    (s.deliverString (.error (.status v))).res.status = Reg.known v := rfl

/-- A string is delivered as `OK`. -/
@[simp] theorem State.deliverString_ok_kind (s : State) (x : Bytes) :
    (s.deliverString (.ok x)).res.kind = .ok := rfl

/-- Settles O26: an invalid frame ends in a frame error, which is no status error; a valid one ends in a status error
only if its status byte lies outside `SUCCESS_SET`. -/
theorem statusErrorNeedsAValidFrame : Obligations.StatusErrorNeedsAValidFrame := by
  intro s t bytes hidle hroom hbytes hexec
  obtain rfl : s.deliverString _ = t :=
    Host.Outcome.next.inj ((exec_ack_of_accepted hidle hroom hbytes).symm.trans hexec)
  rcases parseAck_cases bytes s.cfg.address s.cap s.params.successSet with
    ⟨-, c, hframe⟩ | ⟨p, status, rest, hp, htype, hpayload, hstatus⟩
  · rw [hframe]
    exact ⟨fun _ => State.deliverString_frame_kind s c, fun hkind => by simp at hkind⟩
  · refine ⟨fun hinvalid => ?_, fun hkind => ?_⟩
    · rcases hinvalid p hp with hother | hempty
      · exact absurd htype hother
      · simp [hpayload] at hempty
    · by_cases hsuccess : status ∈ s.params.successSet
      · simp [hstatus, hsuccess] at hkind
      · exact ⟨p, status, rest, hp, htype, hpayload, hsuccess, by simp [hstatus, hsuccess]⟩

end Sys2Proof.Machine
end

section
/-! Encodings (spec/30_encoding.md R70, R82, R83): the decoder and the encoder are each other's inverse, and what a host
action does with the bytes the decoder reads. -/

namespace Sys2Proof.Machine

open Sys2Proof

/-! ### Frames -/

/-- R73: the row a packet type names encodes to the header it was read from and the body; it is well formed when the
length field counts the body; and it is a frame, not an op word. -/
theorem frameOfType_ok {ty : Byte} {a : BitVec 32} {l : BitVec 16} {body : Bytes} {i : Instr}
    (h : frameOfType ty a l body = .ok i) :
    encode i = frameHeader a ty l ++ body ∧ (i.wf = true ↔ body.length = l.toNat) ∧
      isOperation i = false ∧ i ≠ .cfg := by
  unfold frameOfType at h
  repeat' split at h
  all_goals cases h
  all_goals subst_vars
  all_goals exact ⟨rfl, by simp [Instr.wf], rfl, by simp⟩

/-- R70, R74: the front of a byte string that is a header, a body of the length the header gives, and more bytes. -/
theorem decodeFrameFront_frame {ty : Byte} {a : BitVec 32} {l : BitVec 16} {body : Bytes} {i : Instr} (rest : Bytes)
    (h : frameOfType ty a l body = .ok i) (hbody : body.length = l.toNat) :
    decodeFrameFront (frameHeader a ty l ++ body ++ rest) = .ok (i, rest) := by
  have htake : (body ++ rest).take l.toNat = body := by simp [← hbody]
  have hdrop : (body ++ rest).drop l.toNat = rest := by simp [← hbody]
  simp [frameHeader, be32, be16, decodeFrameFront, join32_extract, join16_extract, htake, hdrop, h, hbody]

/-- The first byte of a header sends the decoder to the frames. -/
theorem decode_frameHeader (a : BitVec 32) (ty : Byte) (l : BitVec 16) (rest : Bytes) :
    decode (frameHeader a ty l ++ rest) = decodeFrameFront (frameHeader a ty l ++ rest) := rfl

/-- R70, R74: everything the frame decoder can read. -/
theorem decodeFrameFront_ok {bytes rest : Bytes} {i : Instr} (h : decodeFrameFront bytes = .ok (i, rest)) :
    i.wf = true ∧ encode i ++ rest = bytes ∧ isOperation i = false ∧ i ≠ .cfg := by
  unfold decodeFrameFront at h
  split at h
  · rename_i s1 s0 a3 a2 a1 a0 ty l1 l0 after
    split at h
    · rename_i hstart
      obtain ⟨rfl, rfl⟩ := hstart
      split at h
      · cases h
      · rename_i j hj
        split at h
        · rename_i hlen
          cases h
          obtain ⟨henc, hwf, hop, hcfg⟩ := frameOfType_ok hj
          refine ⟨hwf.2 (by simpa using hlen), ?_, hop, hcfg⟩
          simp [henc, frameHeader, be32_join32, be16_join16]
        · cases h
    · cases h
  · cases h

/-- R198: what is exactly one frame is the encoding of what is read. -/
theorem decodeFrame_ok {bytes : Bytes} {i : Instr} (h : decodeFrame bytes = .ok i) :
    encode i = bytes ∧ isOperation i = false ∧ i ≠ .cfg := by
  unfold decodeFrame at h
  split at h
  · cases h
  · rename_i j hj
    cases h
    obtain ⟨-, henc, hop, hcfg⟩ := decodeFrameFront_ok hj
    exact ⟨by simpa using henc, hop, hcfg⟩
  · cases h

/-! ### Op words -/

/-- R82: an op word that is read is the encoding of what it stands for. -/
theorem encode_of_decodeOp_ok {w : Byte} {i : Instr} (h : decodeOp w = .ok i) : i.wf = true ∧ encode i = [w] := by
  unfold decodeOp at h
  repeat' split at h
  all_goals cases h
  all_goals subst_vars
  all_goals exact ⟨rfl, rfl⟩

/-- R83: the reserved op words. -/
theorem decodeOp_reserved {w : Byte} (hw : w = 0 ∨ 8 ≤ w.toNat) : decodeOp w = .error (.reservedOp w) := by
  unfold decodeOp
  split_ifs with h1 h2 h3 h4 h5 h6 h7
  case neg => rfl
  all_goals subst_vars; revert hw; decide

/-! ### The two directions -/

/-- Settles O36: an op word is read by its own line of the table; a frame by its header, whose fields are read back from
their bytes, and by its body, cut off at the length the header gives. -/
theorem decodeOfEncodeIsIdentity : Obligations.DecodeOfEncodeIsIdentity := by
  intro i rest hwf
  have frame : ∀ {ty a l body}, frameOfType ty a l body = .ok i →
      decode (frameHeader a ty l ++ body ++ rest) = .ok (i, rest) := by
    intro ty a l body hi
    rw [List.append_assoc, decode_frameHeader, ← List.append_assoc]
    exact decodeFrameFront_frame rest hi ((frameOfType_ok hi).2.1.1 hwf)
  cases i with
  | cfg | enc | dec | cmd | ack | dtx | drx => rfl
  | tCommand | tData | tAck | tEndData => exact frame rfl

/-- Settles O37: what is read is a frame, which its header and body give back, or an op word of the table. -/
theorem encodeOfDecodeIsIdentity : Obligations.EncodeOfDecodeIsIdentity := by
  intro i bytes rest h
  unfold decode at h
  split at h
  · cases h
  · split at h
    · obtain ⟨hwf, henc, -, -⟩ := decodeFrameFront_ok h
      exact ⟨hwf, henc⟩
    · split at h
      · cases h
      · rename_i j hj
        cases h
        obtain ⟨hwf, henc⟩ := encode_of_decodeOp_ok hj
        exact ⟨hwf, by simp [henc]⟩

/-- Settles O39: each word is decoded by computation. -/
theorem wordsOfTheTableDecode : Obligations.WordsOfTheTableDecode :=
  ⟨by decide, by decide, by decide, by decide, by decide, by decide⟩

/-! ### Op words and frames as host actions -/

@[simp] theorem hostAction_operate (w : Byte) (s : State) : hostAction (.operate w) s = operate w s := rfl

@[simp] theorem hostAction_carry (bytes : Bytes) (s : State) : hostAction (.carry bytes) s = carryBytes bytes s := rfl

/-- R81: the byte written to `OP` is the op word. -/
@[simp] theorem hostAction_writeOp (w : Byte) (s : State) :
    hostAction (.writeReg 0x01 w.toNat) s = issueWord w s := by
  simp [hostAction, writeRegister, regAt, writeNamed]

theorem operate_of_decodeOp {w : Byte} {i : Instr} (h : decodeOp w = .ok i) (s : State) : operate w s = exec i s := by
  simp [operate, h]

theorem issueWord_of_decodeOp {w : Byte} {i : Instr} (h : decodeOp w = .ok i) (s : State) :
    issueWord w s = issue i s := by
  simp [issueWord, h]

/-- R166: an op word that decodes to nothing has no effect, waited for or not. -/
theorem opWord_refused {w : Byte} {e : DecodeError} (h : decodeOp w = .error e) (s : State) :
    operate w s = .next s ∧ issueWord w s = .next s := by
  simp [operate, issueWord, h]

/-- Settles O38: a reserved op word decodes to nothing. -/
theorem reservedWordsChangeNothing : Obligations.ReservedWordsChangeNothing := by
  intro s w hw
  rw [hostAction_operate, hostAction_writeOp]
  exact opWord_refused (decodeOp_reserved hw) s

/-- R165 (a): outside `IDLE` nothing is sampled. -/
theorem sampled_eq_none_of_not_idle {i : Instr} {s : State} (h : s.seq ≠ .idle) : sampled i s = none := by
  cases hr : sampled i s with
  | none => rfl
  | some r =>
    obtain ⟨-, hidle, -⟩ := sampled_eq_some hr
    exact absurd hidle h

/-- Settles O12: any other op word is reserved or stands for one of the six operations, which sample their operands in
`IDLE` only. -/
theorem nothingRunsBeforeConfiguration : Obligations.NothingRunsBeforeConfiguration := by
  intro s w hunconf hw
  rw [hostAction_operate, hostAction_writeOp]
  cases hd : decodeOp w with
  | error e => exact opWord_refused hd s
  | ok i =>
    rw [operate_of_decodeOp hd, issueWord_of_decodeOp hd]
    rcases decodeOp_ok hd with ⟨hcfg, -⟩ | ⟨-, hop⟩
    · exact absurd hcfg hw
    · exact refused_of_not_sampled hop (sampled_eq_none_of_not_idle (by simp [hunconf]))

/-! ### The step -/

theorem step_of_host_cons {s : State} {a : HostAct} {rest : List HostAct} (h : s.host = a :: rest) :
    step s = hostAction a (s.withHost rest) := by
  simp [step, turn, h]

theorem step_of_host_nil {s : State} (h : s.host = []) : step s = tick s := by
  simp [step, turn, h]

/-- Settles O40: the step performs the host's oldest action, and the action is the meaning of what it decodes to. -/
theorem stepRunsTheDecodedInstruction : Obligations.StepRunsTheDecodedInstruction := by
  intro s rest i
  refine ⟨fun w hhost hd => ?_, fun bytes hhost hd => ?_⟩
  · rw [step_of_host_cons hhost, hostAction_operate, operate_of_decodeOp hd]
  · rw [step_of_host_cons hhost, hostAction_carry]
    simp [carryBytes, hd]

theorem tick_of_not_busy {s : State} (h : s.seq ≠ .busy) : tick s = .next s := by
  unfold tick
  split
  · rename_i hbusy _
    exact absurd hbusy h
  · rfl

/-- Settles O3: the step is a pass of the sequencer, which makes none. -/
theorem nothingHappensUntilTheHostActs : Obligations.NothingHappensUntilTheHostActs := by
  intro s hhost hseq
  rw [step_of_host_nil hhost, tick_of_not_busy hseq]

end Sys2Proof.Machine
end

section
/-! The codec (spec/40_checksum.md, spec/41_codec.md): the checksum as a sum of bytes, `ENC` and `DEC` on the machine,
the round trip, and that a change of one byte is detected. -/

namespace Sys2Proof.Machine

open Sys2Proof

/-! ### The checksum -/

theorem byteSum_eq_sum (p : Bytes) : byteSum p = (p.map BitVec.toNat).sum := by
  induction p with
  | nil => rfl
  | cons b rest ih => simp [byteSum, ih]

/-- R90: the checksum of a type byte, a length and a payload is the sum of their bytes, cut to 16 bits. -/
theorem csum16_toNat (ty : Byte) (len : BitVec 16) (p : Bytes) :
    (csum16 ty len p).toNat = (([ty] ++ be16 len ++ p).map BitVec.toNat).sum % 65536 := by
  rw [csum16, BitVec.toNat_ofNat, byteSum_eq_sum]

/-- Settles O16: the two length bytes are the quotient and the remainder of the length by 256. -/
theorem checksumIsTheByteSum : Obligations.ChecksumIsTheByteSum := by
  intro ty len p
  have hhi : (len.extractLsb' 8 8).toNat = len.toNat / 256 := by
    have := len.isLt
    rw [toNat_byteOf]
    omega
  have hlo : (len.extractLsb' 0 8).toNat = len.toNat % 256 := by
    rw [toNat_byteOf]
    omega
  simp [csum16_toNat, be16, hhi, hlo, Nat.add_assoc]

/-! ### Bytes of a buffer -/

theorem slice_succ {s : Bytes} {i : Nat} (h : i < s.length) (n : Nat) :
    slice s i (n + 1) = byteAt s i :: slice s (i + 1) n := by
  rw [slice, List.drop_eq_getElem_cons h, List.take_succ_cons, slice, byteAt, List.getD_eq_getElem _ _ h]

/-- A two-byte number and its bytes. -/
theorem be16_be16At (s : Bytes) (o : Nat) : be16 (be16At s o) = [byteAt s o, byteAt s (o + 1)] :=
  be16_join16 _ _

/-- A four-byte number and its bytes. -/
theorem be32_be32At (s : Bytes) (o : Nat) :
    be32 (be32At s o) = [byteAt s o, byteAt s (o + 1), byteAt s (o + 2), byteAt s (o + 3)] :=
  be32_join32 _ _ _ _

theorem be16At_inj {s u : Bytes} {o : Nat} (h : be16At s o = be16At u o) :
    byteAt s o = byteAt u o ∧ byteAt s (o + 1) = byteAt u (o + 1) := by
  simpa [be16_be16At] using congrArg be16 h

theorem be32At_inj {s u : Bytes} {o : Nat} (h : be32At s o = be32At u o) :
    byteAt s o = byteAt u o ∧ byteAt s (o + 1) = byteAt u (o + 1) ∧ byteAt s (o + 2) = byteAt u (o + 2) ∧
      byteAt s (o + 3) = byteAt u (o + 3) := by
  simpa [be32_be32At] using congrArg be32 h

/-- R92: the checksum of the fields `DEC` reads is the sum of the bytes as received, from the type byte to the last
payload byte. -/
theorem csum16_received {buf : Bytes} (h2 : 2 ≤ (be16At buf 7).toNat) (hlen : 9 + (be16At buf 7).toNat = buf.length) :
    (csum16 (byteAt buf 6) (be16At buf 7) (slice buf 9 ((be16At buf 7).toNat - 2))).toNat =
      ((slice buf 6 ((be16At buf 7).toNat + 1)).map BitVec.toNat).sum % 65536 := by
  have hslice : slice buf 6 ((be16At buf 7).toNat + 1) =
      byteAt buf 6 :: byteAt buf 7 :: byteAt buf 8 :: slice buf 9 ((be16At buf 7).toNat - 2) := by
    rw [show (be16At buf 7).toNat + 1 = (be16At buf 7).toNat - 2 + 1 + 1 + 1 by omega, slice_succ (by omega),
      slice_succ (by omega), slice_succ (by omega)]
  rw [csum16_toNat, be16_be16At, hslice]
  rfl

/-- Settles O17: every check before the checksum passes, and the checksum of the fields is the sum of the bytes. -/
theorem verifierComparesReceivedBytes : Obligations.VerifierComparesReceivedBytes := by
  intro buf cap h11 h0 h1 h2 hcap hlen
  rw [← csum16_received h2 hlen]
  refine ⟨fun hsum => ⟨_, decodePacket_ok.2 ⟨h11, h0, h1, rfl, h2, hcap, hlen, BitVec.eq_of_toNat_eq hsum, rfl⟩⟩,
    fun hsum => ?_⟩
  rcases decodePacket_cases buf (be32At buf 2) cap with ⟨p, hp⟩ | herror
  · obtain ⟨-, -, -, -, -, -, -, hcsum, -⟩ := decodePacket_ok.1 hp
    exact absurd (congrArg BitVec.toNat hcsum) hsum
  · exact herror

/-! ### One changed byte -/

theorem byteAt_set_same {s : Bytes} {k : Nat} (h : k < s.length) (b : Byte) : byteAt (s.set k b) k = b := by
  simp [byteAt, h]

theorem byteAt_set_other {s : Bytes} {k i : Nat} (h : i ≠ k) (b : Byte) : byteAt (s.set k b) i = byteAt s i := by
  simp [byteAt, List.getD_eq_getElem?_getD, List.getElem?_set_ne h.symm]

theorem be16At_set_outside {s : Bytes} {k o : Nat} (b : Byte) (h : k < o ∨ o + 2 ≤ k) :
    be16At (s.set k b) o = be16At s o := by
  unfold be16At
  rw [byteAt_set_other (by omega), byteAt_set_other (by omega)]

theorem slice_set_outside {s : Bytes} {k i n : Nat} (b : Byte) (h : k < i ∨ i + n ≤ k) :
    slice (s.set k b) i n = slice s i n := by
  unfold slice
  rw [List.drop_set]
  split
  · rfl
  · rw [List.take_set_of_le (by omega)]

theorem slice_set_inside {s : Bytes} {k i n : Nat} (b : Byte) (h : i ≤ k) :
    slice (s.set k b) i n = (slice s i n).set (k - i) b := by
  unfold slice
  rw [List.drop_set, if_neg (by omega), List.take_set]

/-- A string in which one byte is replaced keeps its sum modulo 65536 only if the byte keeps its value. -/
theorem eq_of_sum_set_mod {s : Bytes} {k : Nat} {b : Byte} (hk : k < s.length)
    (h : ((s.set k b).map BitVec.toNat).sum % 65536 = (s.map BitVec.toNat).sum % 65536) : b = s[k] := by
  have hsplit : s = s.take k ++ s[k] :: s.drop (k + 1) := by simp
  have hset : s.set k b = s.take k ++ b :: s.drop (k + 1) := List.set_eq_take_append_cons_drop.trans (if_pos hk)
  have hold := congrArg (fun l => (l.map BitVec.toNat).sum) hsplit
  have hb := b.isLt
  have hsk := s[k].isLt
  apply BitVec.eq_of_toNat_eq
  rw [hset] at h
  simp only [List.map_append, List.map_cons, List.sum_append, List.sum_cons] at h hold
  omega

/-- Two buffers that `DEC` accepts with the same address and that have the same size agree in every header byte but
the type. -/
theorem header_eq_of_ok {f g : Bytes} {a : BitVec 32} {cap cap' : Nat} {p q : Packet}
    (hf : decodePacket f a cap = .ok p) (hg : decodePacket g a cap' = .ok q) (hsize : g.length = f.length) :
    be16At g 7 = be16At f 7 ∧ ∀ i < 9, i ≠ 6 → byteAt g i = byteAt f i := by
  obtain ⟨-, hf0, hf1, hfa, -, -, hfl, -, -⟩ := decodePacket_ok.1 hf
  obtain ⟨-, hg0, hg1, hga, -, -, hgl, -, -⟩ := decodePacket_ok.1 hg
  have hlen : be16At g 7 = be16At f 7 := BitVec.eq_of_toNat_eq (by omega)
  obtain ⟨ha2, ha3, ha4, ha5⟩ := be32At_inj (hga.trans hfa.symm)
  obtain ⟨hl7, hl8⟩ := be16At_inj hlen
  refine ⟨hlen, fun i hi h6 => ?_⟩
  interval_cases i
  · exact hg0.trans hf0.symm
  · exact hg1.trans hf1.symm
  · exact ha2
  · exact ha3
  · exact ha4
  · exact ha5
  · exact absurd rfl h6
  · exact hl7
  · exact hl8

/-- R107: a buffer that `DEC` accepts is not accepted with one byte replaced, unless the byte keeps its value. -/
theorem eq_byteAt_of_ok_set {f : Bytes} {a : BitVec 32} {cap cap' : Nat} {p q : Packet} {k : Nat} {b : Byte}
    (hk : k < f.length) (hf : decodePacket f a cap = .ok p) (hg : decodePacket (f.set k b) a cap' = .ok q) :
    b = byteAt f k := by
  obtain ⟨hlenfield, hheader⟩ := header_eq_of_ok hf hg (by simp)
  obtain ⟨-, -, -, -, h2, -, hsize, hfsum, -⟩ := decodePacket_ok.1 hf
  obtain ⟨-, -, -, -, hg2, -, hgsize, hgsum, -⟩ := decodePacket_ok.1 hg
  have hsumf := csum16_received h2 hsize
  have hsumg := csum16_received hg2 hgsize
  rw [hfsum] at hsumf
  rw [hgsum, hlenfield] at hsumg
  rcases Nat.lt_or_ge k (7 + (be16At f 7).toNat) with hbefore | hafter
  · by_cases hfixed : k < 9 ∧ k ≠ 6
    · -- a header byte other than the type is fixed by the start code, the address and the size
      rw [← hheader k hfixed.1 hfixed.2, byteAt_set_same hk]
    · -- a byte that is summed: the stored checksum is the same, so the sums are
      have h6 : 6 ≤ k := by omega
      have hstored : be16At (f.set k b) (7 + (be16At f 7).toNat) = be16At f (7 + (be16At f 7).toNat) :=
        be16At_set_outside b (.inl hbefore)
      rw [hstored, hsumf, slice_set_inside b h6] at hsumg
      have hin : k - 6 < (slice f 6 ((be16At f 7).toNat + 1)).length := by
        rw [slice_length]
        omega
      rw [eq_of_sum_set_mod hin hsumg.symm]
      have hadd : 6 + (k - 6) = k := by omega
      simp [slice, byteAt, hadd, hk]
  · -- a byte of the stored checksum: the sums are the same, so the stored checksums are
    rw [slice_set_outside b (.inr (by omega)), ← hsumf] at hsumg
    obtain ⟨hhi, hlo⟩ := be16At_inj (BitVec.eq_of_toNat_eq hsumg)
    have hcases : k = 7 + (be16At f 7).toNat ∨ k = 7 + (be16At f 7).toNat + 1 := by omega
    rcases hcases with rfl | rfl
    · rw [← hhi, byteAt_set_same hk]
    · rw [← hlo, byteAt_set_same hk]

/-- Settles O21: `DEC` accepts the frame itself, so it does not accept it with another byte in one place. -/
theorem singleByteChangesAreDetected : Obligations.SingleByteChangesAreDetected := by
  intro a ty p f outcap sel k b henc hk hne
  obtain ⟨hp, -, rfl⟩ := encodePacket_ok.1 henc
  have hcap := capOf_le sel
  rcases decodePacket_cases ((frameOf a ty p).set k b) a (capOf sel) with ⟨q, hq⟩ | herror
  · exact absurd (eq_byteAt_of_ok_set hk (decodePacket_frameOf hp (by omega)) hq).symm hne
  · exact herror

/-! ### Completion of `ENC` and `DEC` -/

/-- R24: registers of which nothing but the kind is specified. -/
theorem Results.onlyKind_fresh (n : Nat) (k : ResKind) : (Results.fresh n k).OnlyKind k :=
  ⟨rfl, rfl, rfl, rfl, rfl, rfl⟩

/-- R178: the delivery of a frame error with `OUT` empty. -/
theorem endedInFrameError_deliverError (s : State) (c : FrameCause) :
    EndedInFrameError s (s.deliverError (.frame c) []) :=
  ⟨ended_deliver _ _ _, Results.onlyKind_fresh _ _, rfl⟩

theorem State.cap_le (s : State) : s.cap ≤ 256 := capOf_le _

/-- An accepted `ENC` delivers what it makes of its operands (R100). -/
theorem exec_enc_of_accepted {s : State} {a : BitVec 32} {ty : Byte} {o : BitVec 16} {p : Bytes}
    (hidle : s.seq = .idle) (hroom : s.roomFor 1 (11 + s.cap) = true) (ha : s.args.address = Reg.known a)
    (hty : s.args.ptype = Reg.known ty) (ho : s.args.outcap = Reg.known o) (hp : s.mem.operand 0 = some p) :
    exec .enc s = .next (s.deliverEnc (encodePacket a ty p o.toNat s.cap)) := by
  have haccepted := encOperands_eq_some (x := ⟨a, ty, p, o⟩) |>.2 ⟨hidle, hroom, ha, hty, ho, hp⟩
  simp only [exec, execEnc, haccepted]

/-- An accepted `DEC` delivers what it makes of its operands (R103). -/
theorem exec_dec_of_accepted {s : State} {a : BitVec 32} {buf : Bytes} (hidle : s.seq = .idle)
    (hroom : s.roomFor 1 s.cap = true) (ha : s.args.address = Reg.known a) (hbuf : s.mem.operand 0 = some buf) :
    exec .dec s = .next (s.deliverDec (decodePacket buf a s.cap)) := by
  have haccepted := decOperands_eq_some (x := ⟨buf, a⟩) |>.2 ⟨hidle, hroom, ha, hbuf⟩
  simp only [exec, execDec, haccepted]

/-- Settles O13: `ENC` succeeds, and its one delivery writes the frame and its size. -/
theorem encWritesTheFrame : Obligations.EncWritesTheFrame := by
  intro s a ty o p hidle hroom ha hty ho hp hcap hspace
  refine ⟨_, exec_enc_of_accepted hidle hroom ha hty ho hp, ?_⟩
  rw [encodePacket_ok.2 ⟨hcap, hspace, rfl⟩]
  refine ⟨ended_deliver _ _ _, rfl, ?_, rfl, rfl, rfl, rfl, rfl⟩
  simp [State.deliverEnc, Results.ofCount]

/-- Settles O14: `ENC` fails for want of space, and its delivery leaves `OUT`. -/
theorem encWithoutSpaceLeavesOut : Obligations.EncWithoutSpaceLeavesOut := by
  intro s a ty o p hidle hroom ha hty ho hp hspace
  refine ⟨_, exec_enc_of_accepted hidle hroom ha hty ho hp, ?_⟩
  rw [encodePacket_error.2 ⟨hspace, rfl⟩]
  exact ⟨ended_deliver _ _ _, Results.onlyKind_fresh _ _, rfl⟩

/-- Settles O18: every check passes, and the delivery writes the packet. -/
theorem decReturnsThePacket : Obligations.DecReturnsThePacket := by
  intro s a buf hidle hroom ha hbuf h11 h0 h1 haddr h2 hcap hlen hsum
  refine ⟨_, exec_dec_of_accepted hidle hroom ha hbuf, ?_⟩
  rw [decodePacket_ok.2 ⟨h11, h0, h1, haddr, h2, hcap, hlen, hsum, rfl⟩]
  exact ⟨ended_deliver _ _ _, rfl, rfl, rfl, rfl, rfl, rfl, rfl⟩

/-- Settles O19: a buffer `DEC` accepts passes every check, so one that fails a check ends in a frame error. -/
theorem decRejectsOtherBuffers : Obligations.DecRejectsOtherBuffers := by
  intro s a buf hidle hroom ha hbuf hfails
  refine ⟨_, exec_dec_of_accepted hidle hroom ha hbuf, ?_⟩
  rcases decodePacket_cases buf a s.cap with ⟨p, hp⟩ | ⟨c, hc⟩
  · obtain ⟨h11, h0, h1, haddr, h2, hcap, hlen, hsum, -⟩ := decodePacket_ok.1 hp
    rcases hfails with h | h | h | h | h | h | h | h
    · omega
    · exact absurd h0 h
    · exact absurd h1 h
    · exact absurd haddr h
    · omega
    · omega
    · exact absurd hlen h
    · exact absurd hsum h
  · rw [hc]
    exact endedInFrameError_deliverError s c

/-- Settles O20: `ENC` leaves the frame in `OUT`, and `DEC` of the frame gives the packet. -/
theorem encThenDecReturnsThePacket : Obligations.EncThenDecReturnsThePacket := by
  intro s t u a ty o p hidle hroom ha hty ho hp hcap hspace henc huidle hcfg huroom hua hubuf
  rw [exec_enc_of_accepted hidle hroom ha hty ho hp, encodePacket_ok.2 ⟨hcap, hspace, rfl⟩] at henc
  obtain rfl := Host.Outcome.next.inj henc
  have hbuf : u.mem.operand 0 = some (frameOf a ty p) := hubuf
  have hsame : u.cap = s.cap := by rw [State.cap, State.cap, hcfg]
  have hle := u.cap_le
  refine ⟨_, exec_dec_of_accepted huidle huroom hua hbuf, ?_⟩
  rw [decodePacket_frameOf (hsame ▸ hcap) (by omega)]
  exact ⟨rfl, rfl, rfl, rfl, rfl⟩

end Sys2Proof.Machine
end

section
/-! Commands and acknowledges (spec/42_command_ack.md): `CMD` and `ACK` on the machine. -/

namespace Sys2Proof.Machine

open Sys2Proof

/-! ### Completion with a string -/

theorem endedInFrameError_deliverString (s : State) (c : FrameCause) :
    EndedInFrameError s (s.deliverString (.error (.frame c))) :=
  endedInFrameError_deliverError s c

/-- R120, R124, R146: what the delivery of a string leaves. -/
theorem deliverString_ok (s : State) (x : Bytes) :
    Ended s (s.deliverString (.ok x)) ∧ (s.deliverString (.ok x)).res.OnlyKind .ok ∧
      (s.deliverString (.ok x)).mem.out = [x] :=
  ⟨ended_deliver _ _ _, Results.onlyKind_fresh _ _, rfl⟩

/-! ### `CMD` -/

theorem State.le_cap (s : State) : 32 ≤ s.cap := capOf_ge _

theorem commandPayload_length (code : Byte) (params : Bytes) (cap : Nat) :
    (commandPayload code params cap).length = 1 + min params.length (cap - 1) := by
  simp [commandPayload]
  omega

theorem commandPayload_eq (code : Byte) (params : Bytes) (cap : Nat) :
    commandPayload code params cap = code :: params.take (cap - 1) := by
  rw [commandPayload, Nat.min_comm, ← List.take_take, List.take_length]

/-- R121: the payload of a command is within the capacity. -/
theorem commandPayload_length_le (code : Byte) (params : Bytes) {cap : Nat} (hcap : 0 < cap) :
    (commandPayload code params cap).length ≤ cap := by
  rw [commandPayload_length]
  omega

/-- An accepted `CMD` delivers what it makes of its operands (R120). -/
theorem exec_cmd_of_accepted {s : State} {code : Byte} {params : Bytes} (hidle : s.seq = .idle)
    (hroom : s.roomFor 1 (11 + s.cap) = true) (hcode : s.args.code = Reg.known code)
    (hparams : s.mem.operand 0 = some params) :
    exec .cmd s =
      .next (s.deliverString (buildCommand code params s.cfg.address s.cap s.params.stageSize)) := by
  have haccepted := cmdOperands_eq_some (x := ⟨code, params⟩) |>.2 ⟨hidle, hroom, hcode, hparams⟩
  simp only [exec, execCmd, haccepted]

/-- Settles O23: the payload is within the capacity, so the inner `ENC` succeeds. -/
theorem cmdBuildsTheCommandFrame : Obligations.CmdBuildsTheCommandFrame := by
  intro s code params hidle hroom hcode hparams hstage
  refine ⟨_, exec_cmd_of_accepted hidle hroom hcode hparams, ?_⟩
  have hfits : 11 + (commandPayload code params s.cap).length ≤ s.params.stageSize := by
    rw [commandPayload_length]
    omega
  have hcap : 0 < s.cap := Nat.lt_of_lt_of_le (by decide) s.le_cap
  rw [buildCommand, encodePacket_ok.2 ⟨commandPayload_length_le code params hcap, hfits, rfl⟩, commandPayload_eq]
  exact deliverString_ok s _

/-- Settles O24: the inner `ENC` fails for want of space. -/
theorem cmdFailsWhenStageIsTooSmall : Obligations.CmdFailsWhenStageIsTooSmall := by
  intro s code params hidle hroom hcode hparams hstage
  refine ⟨_, exec_cmd_of_accepted hidle hroom hcode hparams, ?_⟩
  have hsmall : s.params.stageSize < 11 + (commandPayload code params s.cap).length := by
    rw [commandPayload_length]
    omega
  rw [buildCommand, encodePacket_error.2 ⟨.inr hsmall, rfl⟩]
  exact endedInFrameError_deliverString s _

/-! ### `ACK` -/

theorem deliverString_ended (s : State) (r : Except OpError Bytes) : Ended s (s.deliverString r) := by
  obtain ⟨res, out, -, h⟩ := s.deliverString_eq r
  rw [h]
  exact ended_deliver s res out

/-- R125, step 2: another type. -/
theorem classifyAck_of_ptype_ne {p : Packet} (h : p.ptype ≠ typeAck) (successSet : List Byte) :
    classifyAck successSet p = .error (.frame .ptype) := by
  simp [classifyAck, h]

/-- R125, step 3: no status byte. -/
theorem classifyAck_of_payload_nil {p : Packet} (htype : p.ptype = typeAck) (h : p.payload = [])
    (successSet : List Byte) : classifyAck successSet p = .error (.frame .empty) := by
  simp [classifyAck, htype, h]

/-- R125, steps 4 and 5: the status byte decides. -/
theorem classifyAck_of_payload_cons {p : Packet} {status : Byte} {rest : Bytes} (htype : p.ptype = typeAck)
    (h : p.payload = status :: rest) (successSet : List Byte) :
    classifyAck successSet p = if status ∈ successSet then .ok rest else .error (.status status) := by
  simp [classifyAck, htype, h]

/-- Settles O25: the checks in their order, each with its delivery. -/
theorem ackOutcomes : Obligations.AckOutcomes := by
  intro s bytes hidle hroom hbytes
  refine ⟨_, exec_ack_of_accepted hidle hroom hbytes, deliverString_ended s _, ?_⟩
  unfold parseAck
  rcases decodePacket_cases bytes s.cfg.address s.cap with ⟨p, hp⟩ | ⟨c, hc⟩
  · simp only [hp]
    split
    · rename_i htype
      rw [classifyAck_of_ptype_ne htype]
      exact endedInFrameError_deliverString s _
    · rename_i htype
      have hack : p.ptype = typeAck := not_not.1 htype
      split
      · rename_i hnil
        rw [classifyAck_of_payload_nil hack hnil]
        exact endedInFrameError_deliverString s _
      · rename_i status rest hcons
        rw [classifyAck_of_payload_cons hack hcons]
        split
        · exact (deliverString_ok s rest).2
        · exact ⟨⟨rfl, rfl, rfl, rfl, rfl, rfl⟩, rfl⟩
  · simp only [hc]
    exact endedInFrameError_deliverString s c

/-- R127: an acknowledge that is invalid in any way makes `ACK` end in a frame error. -/
theorem exec_ack_of_invalid {s : State} {bytes : Bytes} (hidle : s.seq = .idle) (hroom : s.roomFor 1 s.cap = true)
    (hbytes : s.mem.operand 0 = some bytes)
    (hinvalid : ∀ p, decodePacket bytes s.cfg.address s.cap = .ok p → p.ptype ≠ typeAck ∨ p.payload = []) :
    ∃ t, exec .ack s = .next t ∧ EndedInFrameError s t := by
  refine ⟨_, exec_ack_of_accepted hidle hroom hbytes, ?_⟩
  rcases parseAck_cases bytes s.cfg.address s.cap s.params.successSet with
    ⟨-, c, hframe⟩ | ⟨p, status, rest, hp, htype, hpayload, -⟩
  · rw [hframe]
    exact endedInFrameError_deliverString s c
  · rcases hinvalid p hp with hother | hempty
    · exact absurd htype hother
    · simp [hpayload] at hempty

end Sys2Proof.Machine
end

section
/-! The receiver (spec/43_data_transfer.md R147 to R149): `DRX` examines the strings of `IN` in order. -/

namespace Sys2Proof.Machine

open Sys2Proof

/-- A string that `DEC` accepts as a data frame with the payload `x`. -/
def IsDataFrame (a : BitVec 32) (cap : Nat) (f x : Bytes) : Prop :=
  ∃ q, decodePacket f a cap = .ok q ∧ q.ptype = typeData ∧ q.payload = x

theorem receiveFrame_of_isDataFrame {a : BitVec 32} {cap : Nat} {f x : Bytes} (h : IsDataFrame a cap f x) :
    receiveFrame a cap f = .ok (x, false) := by
  obtain ⟨q, hq, htype, hpayload⟩ := h
  exact receiveFrame_ok.2 ⟨q, hq, hpayload, htype⟩

/-- R147: an end_data frame that passes gives its payload and ends the stream. -/
theorem receiveFrame_of_endData {a : BitVec 32} {cap : Nat} {f : Bytes} {q : Packet}
    (hq : decodePacket f a cap = .ok q) (htype : q.ptype = typeEndData) :
    receiveFrame a cap f = .ok (q.payload, true) :=
  receiveFrame_ok.2 ⟨q, hq, rfl, htype⟩

/-- R147, R149: a frame that does not decode, or that is neither a data nor an end_data frame, fails with a frame
error. -/
theorem receiveFrame_of_invalid {a : BitVec 32} {cap : Nat} {f : Bytes}
    (h : ∀ q, decodePacket f a cap = .ok q → q.ptype ≠ typeData ∧ q.ptype ≠ typeEndData) :
    ∃ c, receiveFrame a cap f = .error (.frame c) := by
  unfold receiveFrame
  rcases decodePacket_cases f a cap with ⟨q, hq⟩ | ⟨c, hc⟩
  · exact ⟨.ptype, by simp [hq, h q hq]⟩
  · exact ⟨c, by simp [hc]⟩

/-- The errors of the receiver are frame errors (R173). -/
theorem receiveFrame_error {a : BitVec 32} {cap : Nat} {f : Bytes} {e : OpError}
    (h : receiveFrame a cap f = .error e) : ∃ c, e = .frame c := by
  by_cases hvalid : ∀ q, decodePacket f a cap = .ok q → q.ptype ≠ typeData ∧ q.ptype ≠ typeEndData
  · obtain ⟨c, hc⟩ := receiveFrame_of_invalid hvalid
    rw [hc] at h
    exact ⟨c, (Except.error.inj h).symm⟩
  · push Not at hvalid
    obtain ⟨q, hq, htype⟩ := hvalid
    simp only [receiveFrame, hq] at h
    split at h
    · rename_i hother
      exact absurd (htype hother.1) hother.2
    · cases h

/-- R147: data frames that pass are taken one by one, and their payloads are appended. -/
theorem reassembleFrom_append {a : BitVec 32} {cap : Nat} {pre payloads : List Bytes}
    (h : List.Forall₂ (IsDataFrame a cap) pre payloads) (post : List Bytes) (acc : Bytes) :
    reassembleFrom a cap (pre ++ post) acc = reassembleFrom a cap post (acc ++ payloads.flatten) := by
  induction h generalizing acc with
  | nil => simp
  | cons hf _ ih => simp [reassembleFrom, receiveFrame_of_isDataFrame hf, ih]

/-- An accepted `DRX` delivers what it makes of the strings of `IN` (R146). -/
theorem exec_drx_of_accepted {s : State} {frames : List Bytes} (hidle : s.seq = .idle)
    (hroom : s.roomFor 1 (s.mem.inCount * s.cap) = true) (hframes : s.mem.operands = some frames) :
    exec .drx s = .next (s.deliverString (reassemble frames s.cfg.address s.cap)) := by
  have haccepted := drxOperands_eq_some.2 ⟨hidle, hroom, hframes⟩
  simp only [exec, execDrx, haccepted]

/-- Settles O30: the data frames before it are taken, and the frame itself ends the loop one way or the other. -/
theorem drxExaminesInOrder : Obligations.DrxExaminesInOrder := by
  intro s pre post frame payloads hidle hroom hframes hpre
  have hloop := reassembleFrom_append (a := s.cfg.address) (cap := s.cap) hpre (frame :: post) []
  refine ⟨fun q hq htype => ⟨_, exec_drx_of_accepted hidle hroom hframes, ?_⟩,
    fun hinvalid => ⟨_, exec_drx_of_accepted hidle hroom hframes, ?_⟩⟩
  · rw [reassemble, hloop, reassembleFrom, receiveFrame_of_endData hq htype]
    exact deliverString_ok s _
  · obtain ⟨c, hc⟩ := receiveFrame_of_invalid hinvalid
    rw [reassemble, hloop, reassembleFrom, hc]
    exact endedInFrameError_deliverString s c

/-- Settles O31: the loop reaches the end of the strings with every payload appended. -/
theorem drxAcceptsAStreamWithoutEnd : Obligations.DrxAcceptsAStreamWithoutEnd := by
  intro s frames payloads hidle hroom hframes hdata
  refine ⟨_, exec_drx_of_accepted hidle hroom hframes, ?_⟩
  have hloop := reassembleFrom_append (a := s.cfg.address) (cap := s.cap) hdata [] []
  rw [List.append_nil] at hloop
  rw [reassemble, hloop]
  exact deliverString_ok s _

/-! ### Frames of the wrong type -/

/-- R104: the type of an accepted buffer is its byte 6. -/
theorem ptype_of_decodePacket_ok {buf : Bytes} {a : BitVec 32} {cap : Nat} {p : Packet}
    (h : decodePacket buf a cap = .ok p) : p.ptype = byteAt buf 6 := by
  obtain ⟨-, -, -, -, -, -, -, -, rfl⟩ := decodePacket_ok.1 h
  rfl

theorem byteAt_frameHeader_6 (a : BitVec 32) (ty : Byte) (l : BitVec 16) (body : Bytes) :
    byteAt (frameHeader a ty l ++ body) 6 = ty := rfl

/-- Settles O35: byte 6 of the frame is the type that `ACK` and `DRX` look at. -/
theorem handlersTakeOnlyTheirTypes : Obligations.HandlersTakeOnlyTheirTypes := by
  intro i s a len body rest hidle
  refine ⟨fun hi hroom hbytes => ?_, fun hi hroom hframes => ?_⟩
  · have htype : byteAt (encode i) 6 ≠ typeAck := by
      rcases hi with rfl | rfl | rfl <;> rw [encode, byteAt_frameHeader_6] <;> decide
    refine exec_ack_of_invalid hidle hroom hbytes (fun p hp => .inl ?_)
    rw [ptype_of_decodePacket_ok hp]
    exact htype
  · have htype : byteAt (encode i) 6 ≠ typeData ∧ byteAt (encode i) 6 ≠ typeEndData := by
      rcases hi with rfl | rfl <;> rw [encode, byteAt_frameHeader_6] <;> decide
    refine (drxExaminesInOrder s [] rest (encode i) [] hidle hroom hframes .nil).2 (fun q hq => ?_)
    rw [ptype_of_decodePacket_ok hq]
    exact htype

end Sys2Proof.Machine
end

section
/-! The sender (spec/43_data_transfer.md R140 to R145, R150): `DTX` frames the chunks in order, and `DRX` of its frames
gives the data back. -/

namespace Sys2Proof.Machine

open Sys2Proof

/-! ### Chunks -/

/-- R141: the most bytes of data one frame carries. -/
def LinkConfig.chunkMax (k : LinkConfig) : Nat := min k.chunk k.cap

@[simp] theorem State.link_chunkMax (s : State) : s.link.chunkMax = s.chunkMax := rfl

theorem State.chunkMax_pos {s : State} (h : s.cfg.chunk ≠ 0) : 0 < s.chunkMax := by
  have hcap := s.le_cap
  have hchunk : s.cfg.chunk.toNat ≠ 0 := fun h0 => h (BitVec.eq_of_toNat_eq h0)
  unfold State.chunkMax
  omega

theorem chunkSize_eq (k : LinkConfig) (n off : Nat) : chunkSize k n off = min k.chunkMax (n - off) := by
  unfold chunkSize LinkConfig.chunkMax
  omega

theorem chunkSize_pos {k : LinkConfig} {n off : Nat} (hk : 0 < k.chunkMax) (h : off < n) : 0 < chunkSize k n off := by
  rw [chunkSize_eq]
  omega

theorem length_slice_chunkSize (k : LinkConfig) (data : Bytes) (off : Nat) :
    (slice data off (chunkSize k data.length off)).length = chunkSize k data.length off := by
  have := chunkSize_le k data.length off
  rw [slice_length]
  omega

theorem chunkSize_le_cap (k : LinkConfig) (n off : Nat) : chunkSize k n off ≤ k.cap :=
  Nat.min_le_right _ _

theorem ceilDiv_le_iff {n w j : Nat} (hw : 0 < w) : ceilDiv n w ≤ j ↔ n ≤ j * w := by
  unfold ceilDiv
  rw [← Nat.lt_succ_iff, Nat.div_lt_iff_lt_mul hw, Nat.succ_mul]
  omega

theorem lt_ceilDiv_iff {n w j : Nat} (hw : 0 < w) : j < ceilDiv n w ↔ j * w < n := by
  rw [← not_le, ceilDiv_le_iff hw, not_le]

/-- R59, R141: one chunk less is left after a chunk of full size, or of all that is left. -/
theorem ceilDiv_sub_min {n w : Nat} (hw : 0 < w) (hn : 0 < n) : ceilDiv (n - min w n) w + 1 = ceilDiv n w := by
  unfold ceilDiv
  rcases Nat.le_total w n with h | h
  · rw [min_eq_left h, ← Nat.add_div_right _ hw]
    congr 1
    omega
  · rw [min_eq_right h, Nat.sub_self, Nat.zero_add, Nat.div_eq_of_lt (by omega), Nat.div_eq_of_lt_le]
    all_goals omega

/-! ### The frames -/

theorem framesFrom_of_length_le {k : LinkConfig} {data : Bytes} {off : Nat} (h : data.length ≤ off) (fuel : Nat) :
    framesFrom k data fuel off = [] := by
  cases fuel with
  | zero => rfl
  | succ fuel => simp [framesFrom, h]

theorem framesFrom_succ {k : LinkConfig} {data : Bytes} {off : Nat} (h : off < data.length) (fuel : Nat) :
    framesFrom k data (fuel + 1) off =
      keptFrame (encodeChunk k data off) ++ framesFrom k data fuel (off + chunkSize k data.length off) := by
  simp [framesFrom, h]

/-- R142: a frame is kept when it fits the staging buffer. -/
theorem keptFrame_encodePacket {a : BitVec 32} {ty : Byte} {p : Bytes} {stage cap : Nat} (hp : p.length ≤ cap) :
    keptFrame (encodePacket a ty p stage cap) = if 11 + p.length ≤ stage then [frameOf a ty p] else [] := by
  split
  · rename_i hfits
    rw [encodePacket_ok.2 ⟨hp, hfits, rfl⟩, keptFrame]
  · rename_i hlong
    rw [encodePacket_error.2 ⟨.inr (not_le.1 hlong), rfl⟩, keptFrame]

/-- R142: chunk `j` of the data, of `n` chunks: its frame, or nothing when that does not fit the staging buffer. -/
def chunkFrame (k : LinkConfig) (data : Bytes) (n j : Nat) : List Bytes :=
  if 11 + (slice data (j * k.chunkMax) k.chunkMax).length ≤ k.stageSize then
    [frameOf k.address (if j + 1 = n then typeEndData else typeData) (slice data (j * k.chunkMax) k.chunkMax)]
  else []

/-- The pass at the start of chunk `j` frames that chunk, and it is the last one when the pass reaches the end of the
data. -/
theorem keptFrame_encodeChunk {k : LinkConfig} {data : Bytes} {j : Nat} (hk : 0 < k.chunkMax)
    (hj : j * k.chunkMax < data.length) :
    keptFrame (encodeChunk k data (j * k.chunkMax)) =
      chunkFrame k data (ceilDiv data.length k.chunkMax) j := by
  have hslice : slice data (j * k.chunkMax) (chunkSize k data.length (j * k.chunkMax)) =
      slice data (j * k.chunkMax) k.chunkMax := by
    rw [chunkSize_eq, slice, slice, ← List.length_drop, ← List.take_take, List.take_length]
  have hlast : j * k.chunkMax + chunkSize k data.length (j * k.chunkMax) = data.length ↔
      j + 1 = ceilDiv data.length k.chunkMax := by
    have hlt := (lt_ceilDiv_iff hk).2 hj
    have hle := ceilDiv_le_iff (n := data.length) (j := j + 1) hk
    rw [Nat.succ_mul] at hle
    rw [chunkSize_eq]
    omega
  have hcap : (slice data (j * k.chunkMax) k.chunkMax).length ≤ k.cap := by
    rw [slice_length]
    exact (Nat.min_le_left _ _).trans (Nat.min_le_right _ _)
  rw [encodeChunk, hslice, keptFrame_encodePacket hcap, chunkFrame, chunkType]
  simp only [hlast]

/-- R142: from chunk `j` on, the loop frames the chunks `j` to `ceil(n / w) - 1` in order. -/
theorem framesFrom_eq_flatMap {k : LinkConfig} {data : Bytes} (hk : 0 < k.chunkMax) {fuel j : Nat}
    (hfuel : data.length - j * k.chunkMax ≤ fuel) :
    framesFrom k data fuel (j * k.chunkMax) =
      (List.range' j (ceilDiv data.length k.chunkMax - j)).flatMap
        (chunkFrame k data (ceilDiv data.length k.chunkMax)) := by
  induction fuel generalizing j with
  | zero =>
    have hdone := (ceilDiv_le_iff (j := j) hk).2 (show data.length ≤ j * k.chunkMax by omega)
    rw [framesFrom, Nat.sub_eq_zero_of_le hdone]
    rfl
  | succ fuel ih =>
    rcases Nat.lt_or_ge (j * k.chunkMax) data.length with hj | hj
    · have hlt := (lt_ceilDiv_iff hk).2 hj
      have hrest : framesFrom k data fuel (j * k.chunkMax + chunkSize k data.length (j * k.chunkMax)) =
          (List.range' (j + 1) (ceilDiv data.length k.chunkMax - (j + 1))).flatMap
            (chunkFrame k data (ceilDiv data.length k.chunkMax)) := by
        have hsucc : (j + 1) * k.chunkMax = j * k.chunkMax + k.chunkMax := Nat.succ_mul _ _
        rw [chunkSize_eq]
        rcases Nat.le_total k.chunkMax (data.length - j * k.chunkMax) with hfull | hshort
        · rw [min_eq_left hfull, ← hsucc]
          exact ih (by omega)
        · have hdone := (ceilDiv_le_iff (j := j + 1) hk).2 (show data.length ≤ (j + 1) * k.chunkMax by omega)
          rw [framesFrom_of_length_le (by omega), Nat.sub_eq_zero_of_le hdone]
          rfl
      rw [framesFrom_succ hj, keptFrame_encodeChunk hk hj, hrest,
        show ceilDiv data.length k.chunkMax - j = ceilDiv data.length k.chunkMax - (j + 1) + 1 by omega,
        List.range'_succ, List.flatMap_cons]
    · rw [framesFrom_of_length_le hj, Nat.sub_eq_zero_of_le ((ceilDiv_le_iff hk).2 hj)]
      rfl

/-- R142: `DTX` frames every chunk in order. -/
theorem splitData_eq_flatMap {k : LinkConfig} (hk : 0 < k.chunkMax) (data : Bytes) :
    splitData k data =
      (List.range (ceilDiv data.length k.chunkMax)).flatMap
        (chunkFrame k data (ceilDiv data.length k.chunkMax)) := by
  have h := framesFrom_eq_flatMap (data := data) (fuel := data.length) (j := 0) hk (Nat.sub_le _ _)
  rw [Nat.zero_mul, Nat.sub_zero, ← List.range_eq_range'] at h
  exact h

/-! ### `DTX` on the machine -/

/-- An accepted `DTX` of a session that `CFG` opened delivers the frames (R140). -/
theorem exec_dtx_of_accepted {s : State} {data : Bytes} (hdata : dtxOperands s = some data) (hchunk : s.cfg.chunk ≠ 0) :
    exec .dtx s = .next (s.deliverFrames (splitData s.link data)) := by
  simp only [exec, execDtx, hdata, hchunk, and_false, if_false]

/-- Settles O29: the meaning of `DTX` answers the fault in this case. -/
theorem dtxStuckWithoutChunkLength : Obligations.DtxStuckWithoutChunkLength := by
  intro s data hdata hne hchunk
  simp only [exec, execDtx, hdata, hchunk, hne, ne_eq, not_false_eq_true, and_self, if_true]

/-- Settles O27: the frames delivered are those of the loop, chunk by chunk. -/
theorem dtxFramesEveryChunk : Obligations.DtxFramesEveryChunk := by
  intro s data w k hw hk hidle hroom hbytes hchunk
  subst hw hk
  have hdata := dtxOperands_eq_some.2 ⟨hidle, hroom, hbytes⟩
  exact ⟨_, exec_dtx_of_accepted hdata hchunk, ended_deliver _ _ _, Results.onlyKind_fresh _ _,
    splitData_eq_flatMap (k := s.link) (State.chunkMax_pos hchunk) data⟩

/-- A `DTX` that answers a next state on data had a chunk length (U6). -/
theorem chunk_ne_zero_of_exec_dtx {s t : State} {data : Bytes} (hdata : dtxOperands s = some data) (hne : data ≠ [])
    (h : exec .dtx s = .next t) : s.cfg.chunk ≠ 0 := by
  intro hchunk
  cases (dtxStuckWithoutChunkLength s data hdata hne hchunk).symm.trans h

/-- With a staging buffer that holds a full frame no chunk is left out. -/
theorem chunkFrame_of_stage {k : LinkConfig} (hstage : 11 + k.chunkMax ≤ k.stageSize) (data : Bytes) (n j : Nat) :
    chunkFrame k data n j =
      [frameOf k.address (if j + 1 = n then typeEndData else typeData) (slice data (j * k.chunkMax) k.chunkMax)] := by
  refine if_pos ?_
  rw [slice_length]
  omega

/-- Settles O28: there is at least one chunk, every chunk is framed, and only chunk `ceil(n / w) - 1` is tagged. -/
theorem dtxTagsTheLastFrame : Obligations.DtxTagsTheLastFrame := by
  intro s t data hdata hne hstage hexec
  have hchunk := chunk_ne_zero_of_exec_dtx hdata hne hexec
  rw [exec_dtx_of_accepted hdata hchunk] at hexec
  obtain rfl := Host.Outcome.next.inj hexec
  have hw : 0 < s.link.chunkMax := State.chunkMax_pos hchunk
  have hfull : 11 + s.link.chunkMax ≤ s.link.stageSize := hstage
  have hsome : 0 < ceilDiv data.length s.link.chunkMax :=
    (lt_ceilDiv_iff hw).2 (by simpa using List.length_pos_iff.2 hne)
  obtain ⟨n, hn⟩ := Nat.exists_eq_add_one.2 hsome
  have hout : (s.deliverFrames (splitData s.link data)).mem.out = splitData s.link data := rfl
  rw [hout, splitData_eq_flatMap hw, hn, List.range_succ, List.flatMap_append, List.flatMap_singleton,
    chunkFrame_of_stage hfull data (n + 1) n, if_pos rfl]
  refine ⟨_, _, rfl, byteAt_frameOf_6 _ _ _, fun f hf => ?_⟩
  obtain ⟨j, hj, hfj⟩ := List.mem_flatMap.1 hf
  have hnotlast : j + 1 ≠ n + 1 := by
    have := List.mem_range.1 hj
    omega
  rw [chunkFrame_of_stage hfull, if_neg hnotlast, List.mem_singleton] at hfj
  rw [hfj]
  exact byteAt_frameOf_6 _ _ _

/-! ### The chunk round trip -/

/-- The receiver takes a data or end_data frame of its own address. -/
theorem receiveFrame_frameOf {a : BitVec 32} {ty : Byte} {p : Bytes} {cap : Nat}
    (hty : ty = typeData ∨ ty = typeEndData) (hp : p.length ≤ cap) (hcap : cap ≤ 65533) :
    receiveFrame a cap (frameOf a ty p) = .ok (p, decide (ty = typeEndData)) := by
  refine receiveFrame_ok.2 ⟨_, decodePacket_frameOf hp hcap, rfl, ?_⟩
  rcases hty with rfl | rfl <;> rfl

/-- R150: the receiver, at the frames of the chunks from `off` on, has the data from `off` on still to append. -/
theorem reassembleFrom_framesFrom {k : LinkConfig} {data : Bytes} (hk : 0 < k.chunkMax) (hcap : k.cap ≤ 65533)
    (hstage : 11 + k.chunkMax ≤ k.stageSize) {fuel off : Nat} (hfuel : data.length - off ≤ fuel) (acc : Bytes) :
    reassembleFrom k.address k.cap (framesFrom k data fuel off) acc = .ok (acc ++ data.drop off) := by
  induction fuel generalizing off acc with
  | zero =>
    have hend : data.length ≤ off := by omega
    simp [framesFrom, reassembleFrom, hend]
  | succ fuel ih =>
    rcases Nat.lt_or_ge off data.length with hoff | hend
    · have hpos := chunkSize_pos hk hoff
      have hlen := length_slice_chunkSize k data off
      have hle := chunkSize_le_cap k data.length off
      have hmax : chunkSize k data.length off ≤ k.chunkMax := (chunkSize_eq k _ _).trans_le (Nat.min_le_left _ _)
      have hframe : encodeChunk k data off =
          .ok (frameOf k.address (chunkType k data.length off) (slice data off (chunkSize k data.length off))) :=
        encodePacket_ok.2 ⟨by omega, by omega, rfl⟩
      have hdrop : slice data off (chunkSize k data.length off) ++ data.drop (off + chunkSize k data.length off) =
          data.drop off := by
        rw [slice, ← List.drop_drop, List.take_append_drop]
      have htype : chunkType k data.length off = typeData ∨ chunkType k data.length off = typeEndData := by
        unfold chunkType
        split <;> simp
      have hreceive := receiveFrame_frameOf (a := k.address) htype (hlen.trans_le hle) hcap
      rw [framesFrom_succ hoff, hframe, keptFrame, List.singleton_append, reassembleFrom, hreceive]
      by_cases hlast : off + chunkSize k data.length off = data.length
      · have hempty : data.drop (off + chunkSize k data.length off) = [] := by simp [hlast]
        rw [hempty, List.append_nil] at hdrop
        simp [chunkType, hlast, hdrop]
      · have hdata : decide (chunkType k data.length off = typeEndData) = false := by
          rw [chunkType, if_neg hlast]
          rfl
        rw [hdata]
        simp only
        rw [ih (by omega), List.append_assoc, hdrop]
    · rw [framesFrom_of_length_le hend]
      simp [reassembleFrom, hend]

/-- Settles O32: the receiver, at the frames of all chunks, has the whole of the data to append. -/
theorem dtxThenDrxReturnsTheData : Obligations.DtxThenDrxReturnsTheData := by
  intro s t u data hdata hchunk hstage hexec huidle hcfg huroom huframes
  rw [exec_dtx_of_accepted hdata hchunk] at hexec
  obtain rfl := Host.Outcome.next.inj hexec
  have hframes : u.mem.operands = some (splitData s.link data) := huframes
  have hsame : u.cap = s.cap := by rw [State.cap, State.cap, hcfg]
  have hcap : s.link.cap ≤ 65533 := s.cap_le.trans (by decide)
  have hloop : reassemble (splitData s.link data) s.cfg.address s.cap = .ok data :=
    reassembleFrom_framesFrom (k := s.link) (State.chunkMax_pos hchunk) hcap hstage (Nat.sub_le _ _) []
  refine ⟨_, exec_drx_of_accepted huidle huroom hframes, ?_⟩
  rw [hcfg, hsame, hloop]
  exact (deliverString_ok u data).2

end Sys2Proof.Machine
end

section
/-! The sequencer (spec/44_system_ops.md R163, R164; spec/70_reset_and_hazards.md R204, R206): an issued operation, at
any of its passes, is on its way to one outcome, and reaches it after finitely many passes. -/

namespace Sys2Proof.Machine

open Sys2Proof

/-- Settles O53: the issue of the operation starts a run with the operands sampled. -/
theorem issueSamplesAndGoesBusy : Obligations.IssueSamplesAndGoesBusy := by
  intro s w i r hd hr
  obtain ⟨hop, -, -⟩ := sampled_eq_some hr
  rw [hostAction_writeOp, issueWord_of_decodeOp hd, issue_of_isOperation hop, issueSampled, hr]
  rfl

/-! ### Where a running operation is going -/

/-- What becomes of a `DTX` that has data left at `off`: stuck without a chunk length (U6), or all frames delivered. -/
def State.finishSending (s : State) (data : Bytes) (off : Nat) (frames : List Bytes) :
    Host.Outcome State Fault Refusal :=
  if chunkSize s.link data.length off = 0 then .fault .dtxNoProgress
  else .next (s.deliverFrames (frames ++ framesFrom s.link data (data.length - off) off))

/-- The outcome a running operation is going to: what is left of its function, computed at once, and its delivery. -/
def Running.finish (s : State) : Running → Host.Outcome State Fault Refusal
  | .enc address ptype payload outcap =>
    .next (s.deliverEnc (encodePacket address ptype payload outcap.toNat s.cap))
  | .dec buffer expected => .next (s.deliverDec (decodePacket buffer expected s.cap))
  | .cmd code params none =>
    .next (s.deliverString (buildCommand code params s.cfg.address s.cap s.params.stageSize))
  | .cmd _ _ (some frame) => .next (s.deliverString (.ok frame))
  | .ack bytes => .next (s.deliverString (parseAck bytes s.cfg.address s.cap s.params.successSet))
  | .dtx data off .idle _ frames =>
    if off < data.length then s.finishSending data off frames else .next (s.deliverFrames frames)
  | .dtx data off .emittingData _ frames => s.finishSending data off frames
  | .dtx data off .emittingEndData _ frames => s.finishSending data off frames
  | .dtx _ _ .done _ frames => .next (s.deliverFrames frames)
  | .drx frames i .collecting acc =>
    .next (s.deliverString (reassembleFrom s.cfg.address s.cap (frames.drop i) acc))
  | .drx _ _ .complete acc => .next (s.deliverString (.ok acc))
  | .drx _ _ (.failed e) _ => .next (s.deliverString (.error e))

/-- A bound on the passes a running operation still makes. -/
def Running.passesLeft : Running → Nat
  | .enc _ _ _ _ => 1
  | .dec _ _ => 1
  | .cmd _ _ none => 2
  | .cmd _ _ (some _) => 1
  | .ack _ => 1
  | .dtx data off .idle _ _ => data.length - off + 2
  | .dtx data off .emittingData _ _ => data.length - off + 1
  | .dtx data off .emittingEndData _ _ => data.length - off + 1
  | .dtx _ _ .done _ _ => 1
  | .drx frames i .collecting _ => frames.length - i + 2
  | .drx _ _ .complete _ => 1
  | .drx _ _ (.failed _) _ => 1

theorem Running.passesLeft_pos (r : Running) : 0 < r.passesLeft := by
  unfold Running.passesLeft
  split <;> omega

/-- The outcome does not depend on what the sequencer holds at the moment. -/
theorem Running.finish_keepRunning (r r' : Running) (s : State) : r.finish (s.keepRunning r') = r.finish s := by
  unfold Running.finish
  split <;> rfl

theorem Running.finish_start (r r' : Running) (s : State) : r.finish (s.start r') = r.finish s := by
  unfold Running.finish
  split <;> rfl

/-- Whatever a running operation is going to: if it is a next state, it is one delivery. -/
theorem Running.finish_next {r : Running} {s t : State} (h : r.finish s = .next t) :
    ∃ res out, res.statusOnlyOnError ∧ t = s.deliver res out := by
  have frames : ∀ out, ∃ res out', res.statusOnlyOnError ∧ s.deliverFrames out = s.deliver res out' :=
    fun _ => ⟨_, _, Results.statusOnlyOnError_fresh _ .ok, rfl⟩
  have sending : ∀ {data off out}, s.finishSending data off out = .next t →
      ∃ res out', res.statusOnlyOnError ∧ t = s.deliver res out' := by
    intro data off out h
    unfold State.finishSending at h
    split at h <;> cases h
    exact frames _
  match r with
  | .enc _ _ _ _ => cases h; exact s.deliverEnc_eq _
  | .dec _ _ => cases h; exact s.deliverDec_eq _
  | .cmd _ _ none => cases h; exact s.deliverString_eq _
  | .cmd _ _ (some _) => cases h; exact s.deliverString_eq _
  | .ack _ => cases h; exact s.deliverString_eq _
  | .dtx _ _ .idle _ _ =>
    simp only [Running.finish] at h
    split at h
    · exact sending h
    · cases h; exact frames _
  | .dtx _ _ .emittingData _ _ => exact sending h
  | .dtx _ _ .emittingEndData _ _ => exact sending h
  | .dtx _ _ .done _ _ => cases h; exact frames _
  | .drx _ _ .collecting _ => cases h; exact s.deliverString_eq _
  | .drx _ _ .complete _ => cases h; exact s.deliverString_eq _
  | .drx _ _ (.failed _) _ => cases h; exact s.deliverString_eq _

/-! ### One pass -/

theorem chunkSize_link_eq_zero_iff {s : State} {n off : Nat} (h : off < n) :
    chunkSize s.link n off = 0 ↔ s.cfg.chunk = 0 := by
  constructor
  · intro h0
    by_contra hchunk
    have := chunkSize_pos (k := s.link) (State.chunkMax_pos hchunk) h
    omega
  · intro hchunk
    simp [chunkSize, State.link, hchunk]

/-- R142: more fuel than bytes left changes nothing. -/
theorem framesFrom_fuel {k : LinkConfig} {data : Bytes} (hk : 0 < k.chunkMax) {fuel fuel' off : Nat}
    (h : data.length - off ≤ fuel) (h' : data.length - off ≤ fuel') :
    framesFrom k data fuel off = framesFrom k data fuel' off := by
  induction fuel generalizing fuel' off with
  | zero => rw [framesFrom_of_length_le (by omega), framesFrom_of_length_le (by omega)]
  | succ fuel ih =>
    rcases Nat.lt_or_ge off data.length with hoff | hend
    · obtain ⟨fuel', rfl⟩ := Nat.exists_eq_add_one.2 (show 0 < fuel' by omega)
      have := chunkSize_pos hk hoff
      rw [framesFrom_succ hoff, framesFrom_succ hoff, ih (fuel' := fuel') (by omega) (by omega)]
    · rw [framesFrom_of_length_le hend, framesFrom_of_length_le hend]

/-- The phase the sender is in at `off` leads to the delivery of the frames so far and of the chunks from `off` on. -/
theorem Running.finish_dtx_senderPhase {s : State} (hchunk : s.cfg.chunk ≠ 0) (data : Bytes) (off : Nat)
    (stage : Bytes) (frames : List Bytes) :
    Running.finish s (.dtx data off (senderPhase s.link data.length off) stage frames) =
      .next (s.deliverFrames (frames ++ framesFrom s.link data (data.length - off) off)) := by
  unfold senderPhase
  split
  · rename_i hoff
    have hsize := (chunkSize_link_eq_zero_iff (s := s) hoff).not.2 hchunk
    split <;> exact if_neg hsize
  · rename_i hend
    rw [framesFrom_of_length_le (not_lt.1 hend), List.append_nil]
    rfl

theorem Running.passesLeft_dtx_senderPhase_le (k : LinkConfig) (data : Bytes) (off : Nat) (stage : Bytes)
    (frames : List Bytes) :
    Running.passesLeft (.dtx data off (senderPhase k data.length off) stage frames) ≤ data.length - off + 1 := by
  unfold senderPhase
  split_ifs <;> simp only [Running.passesLeft] <;> omega

/-- What a pass of the sequencer from `s` may answer when `r` runs: the outcome `r` is going to, or an operation still
running that goes to the same outcome in fewer passes. -/
def PassLeadsOn (r : Running) (s : State) (o : Host.Outcome State Fault Refusal) : Prop :=
  o = r.finish s ∨ ∃ r', o = .next (s.keepRunning r') ∧ r'.finish s = r.finish s ∧ r'.passesLeft < r.passesLeft

/-- One emitting pass of `DTX` (R142, R143). -/
theorem emitChunk_leadsOn {phase : SenderPhase} (hphase : phase = .emittingData ∨ phase = .emittingEndData)
    (data : Bytes) (off : Nat) (stage : Bytes) (frames : List Bytes) (s : State) :
    PassLeadsOn (.dtx data off phase stage frames) s (emitChunk data off stage frames s) := by
  have hfinish : Running.finish s (.dtx data off phase stage frames) = s.finishSending data off frames := by
    rcases hphase with rfl | rfl <;> rfl
  have hleft : Running.passesLeft (.dtx data off phase stage frames) = data.length - off + 1 := by
    rcases hphase with rfl | rfl <;> rfl
  unfold PassLeadsOn
  rw [hfinish, hleft, emitChunk, State.finishSending]
  by_cases hsize : chunkSize s.link data.length off = 0
  · rw [if_pos hsize, if_pos hsize]
    exact .inl rfl
  · have hle := chunkSize_le s.link data.length off
    have hoff : off < data.length := by omega
    have hchunk := (chunkSize_link_eq_zero_iff hoff).not.1 hsize
    have hleft' := Running.passesLeft_dtx_senderPhase_le s.link data (off + chunkSize s.link data.length off)
      (stageAfter stage (encodeChunk s.link data off)) (frames ++ keptFrame (encodeChunk s.link data off))
    rw [if_neg hsize, if_neg hsize]
    refine .inr ⟨_, rfl, ?_, by omega⟩
    rw [Running.finish_dtx_senderPhase hchunk, List.append_assoc,
      framesFrom_fuel (k := s.link) (State.chunkMax_pos hchunk) (Nat.le_refl _)
        (show data.length - (off + chunkSize s.link data.length off) ≤ data.length - off - 1 by omega),
      ← framesFrom_succ hoff, show data.length - off - 1 + 1 = data.length - off by omega]

/-- One collecting pass of `DRX` (R147, R148). -/
theorem collectFrame_leadsOn (frames : List Bytes) (i : Nat) (acc : Bytes) (s : State) :
    PassLeadsOn (.drx frames i .collecting acc) s (.next (collectFrame frames i acc s)) := by
  right
  unfold collectFrame
  split
  · rename_i hnone
    have hdrop : frames.drop i = [] := List.drop_eq_nil_of_le (List.getElem?_eq_none_iff.1 hnone)
    refine ⟨_, rfl, ?_, by simp [Running.passesLeft]⟩
    simp [Running.finish, hdrop, reassembleFrom]
  · rename_i frame hframe
    obtain ⟨hi, hget⟩ := List.getElem?_eq_some_iff.1 hframe
    have hdrop : frames.drop i = frame :: frames.drop (i + 1) := by rw [List.drop_eq_getElem_cons hi, hget]
    split
    · rename_i e he
      refine ⟨_, rfl, ?_, by simp [Running.passesLeft]⟩
      simp [Running.finish, hdrop, reassembleFrom, he]
    · rename_i payload hlast
      refine ⟨_, rfl, ?_, by simp [Running.passesLeft]⟩
      simp [Running.finish, hdrop, reassembleFrom, hlast]
    · rename_i payload hdata
      refine ⟨_, rfl, ?_, by simp only [Running.passesLeft]; omega⟩
      simp [Running.finish, hdrop, reassembleFrom, hdata]

/-- R164, R204: a pass leads on to the outcome the running operation is going to. -/
theorem advance_leadsOn (r : Running) (s : State) : PassLeadsOn r s (advance r s) := by
  match r with
  | .enc _ _ _ _ => exact .inl rfl
  | .dec _ _ => exact .inl rfl
  | .cmd code params none =>
    simp only [advance]
    split
    · rename_i frame hframe
      exact .inr ⟨_, rfl, by simp [Running.finish, hframe], by simp [Running.passesLeft]⟩
    · rename_i e he
      exact .inl (by simp [Running.finish, he])
  | .cmd _ _ (some _) => exact .inl rfl
  | .ack _ => exact .inl rfl
  | .dtx data off .idle stage frames =>
    have hleft := Running.passesLeft_dtx_senderPhase_le s.link data off stage frames
    refine .inr ⟨_, rfl, ?_, Nat.lt_succ_of_le hleft⟩
    by_cases hoff : off < data.length
    · simp only [senderPhase, Running.finish, hoff, if_true]
      split_ifs <;> rfl
    · simp [senderPhase, Running.finish, hoff]
  | .dtx data off .emittingData stage frames => exact emitChunk_leadsOn (.inl rfl) data off stage frames s
  | .dtx data off .emittingEndData stage frames => exact emitChunk_leadsOn (.inr rfl) data off stage frames s
  | .dtx _ _ .done _ _ => exact .inl rfl
  | .drx frames i .collecting acc => exact collectFrame_leadsOn frames i acc s
  | .drx _ _ .complete _ => exact .inl rfl
  | .drx _ _ (.failed _) _ => exact .inl rfl

/-! ### Runs -/

theorem run_succ_of_next {s t : State} (h : step s = .next t) (n : Nat) :
    Host.Core.run core (n + 1) s = Host.Core.run core n t := by
  simp only [Host.Core.run, show core.step s = .next t from h]

theorem run_succ_of_fault {s : State} {e : Fault} (h : step s = .fault e) (n : Nat) :
    Host.Core.run core (n + 1) s = .fault e := by
  simp only [Host.Core.run, show core.step s = .fault e from h]

theorem run_succ_of_refused {s : State} {e : Refusal} (h : step s = .refused e) (n : Nat) :
    Host.Core.run core (n + 1) s = .refused e := by
  simp only [Host.Core.run, show core.step s = .refused e from h]

/-- R191: a machine that is asked nothing and runs nothing stays as it is. -/
theorem run_of_not_busy {s : State} (hhost : s.host = []) (hseq : s.seq ≠ .busy) (n : Nat) :
    Host.Core.run core n s = .next s := by
  induction n with
  | zero => rfl
  | succ n ih => rw [run_succ_of_next (nothingHappensUntilTheHostActs s hhost hseq), ih]

theorem tick_of_busy {s : State} {r : Running} (hseq : s.seq = .busy) (hrun : s.run = some r) :
    tick s = advance r s := by
  unfold tick
  rw [hseq, hrun]

/-- R204, R206: left to run for enough steps, a running operation ends in the outcome it is going to. -/
theorem run_of_busy {s : State} {r : Running} {n : Nat} (hhost : s.host = []) (hseq : s.seq = .busy)
    (hrun : s.run = some r) (hn : r.passesLeft ≤ n) : Host.Core.run core n s = r.finish s := by
  induction n generalizing s r with
  | zero =>
    have := r.passesLeft_pos
    omega
  | succ n ih =>
    have hstep : step s = advance r s := (step_of_host_nil hhost).trans (tick_of_busy hseq hrun)
    rcases advance_leadsOn r s with hends | ⟨r', hnext, hsame, hless⟩
    · rw [hends] at hstep
      cases hfinish : r.finish s with
      | next t =>
        rw [run_succ_of_next (hstep.trans hfinish)]
        obtain ⟨res, out, -, rfl⟩ := Running.finish_next hfinish
        exact run_of_not_busy (s := s.deliver res out) hhost (by simp) n
      | fault e => exact run_succ_of_fault (hstep.trans hfinish) n
      | refused e => exact run_succ_of_refused (hstep.trans hfinish) n
    · rw [run_succ_of_next (hstep.trans hnext), ← hsame, ← Running.finish_keepRunning r' r' s]
      exact ih hhost hseq rfl (by omega)

/-- R163, R206: an accepted operation is going to the outcome of its meaning as one atomic step. -/
theorem exec_eq_finish_of_sampled {i : Instr} {s : State} {r : Running} (h : sampled i s = some r) :
    exec i s = r.finish s := by
  cases i with
  | enc =>
    obtain ⟨x, hx, rfl⟩ := Option.map_eq_some_iff.1 h
    simp [exec, execEnc, hx, Running.finish]
  | dec =>
    obtain ⟨x, hx, rfl⟩ := Option.map_eq_some_iff.1 h
    simp [exec, execDec, hx, Running.finish]
  | cmd =>
    obtain ⟨x, hx, rfl⟩ := Option.map_eq_some_iff.1 h
    simp [exec, execCmd, hx, Running.finish]
  | ack =>
    obtain ⟨x, hx, rfl⟩ := Option.map_eq_some_iff.1 h
    simp [exec, execAck, hx, Running.finish]
  | dtx =>
    obtain ⟨data, hdata, rfl⟩ := Option.map_eq_some_iff.1 h
    by_cases hempty : data = []
    · subst hempty
      simp [exec, execDtx, hdata, Running.finish, splitData, framesFrom]
    · have hpos : 0 < data.length := List.length_pos_iff.2 hempty
      simp [exec, execDtx, hdata, Running.finish, State.finishSending, chunkSize_link_eq_zero_iff hpos, hempty, hpos,
        splitData]
  | drx =>
    obtain ⟨x, hx, rfl⟩ := Option.map_eq_some_iff.1 h
    simp [exec, execDrx, hx, Running.finish, reassemble]
  | cfg | tCommand | tData | tAck | tEndData => cases h

/-- `CFG` answers a next state, with nothing running that was not before (R160). -/
theorem exec_cfg_next (s : State) : ∃ t, exec .cfg s = .next t ∧ t.host = s.host ∧ (s.seq ≠ .busy → t.seq ≠ .busy) := by
  simp only [exec, execCfg]
  split
  · exact ⟨s, rfl, rfl, id⟩
  · exact ⟨_, rfl, rfl, fun _ => by simp⟩

/-- Settles O54: the first step issues the operation; a refused one and `CFG` have then ended, and an accepted one goes
to the outcome of its meaning. -/
theorem issuedRunEndsInTheAtomicResult : Obligations.IssuedRunEndsInTheAtomicResult := by
  intro s w i hseq hhost hd
  have hself : (s.withHost [.writeReg 0x01 w.toNat]).withHost [] = s := by
    rw [← hhost]
    rfl
  have hfirst : step (s.withHost [.writeReg 0x01 w.toNat]) = issue i s := by
    rw [step_of_host_cons (State.withHost_host _ _), hself, hostAction_writeOp, issueWord_of_decodeOp hd]
  have afterFirst : ∀ {t : State} {o N}, issue i s = .next t → (∀ n, N ≤ n → Host.Core.run core n t = o) →
      ∃ N, ∀ n, N ≤ n → Host.Core.run core n (s.withHost [.writeReg 0x01 w.toNat]) = o := by
    intro t o N hissue hrun
    refine ⟨N + 1, fun n hn => ?_⟩
    obtain ⟨n, rfl⟩ := Nat.exists_eq_add_one.2 (show 0 < n by omega)
    rw [run_succ_of_next (hfirst.trans hissue)]
    exact hrun n (by omega)
  rcases decodeOp_ok hd with ⟨-, rfl⟩ | ⟨-, hop⟩
  · obtain ⟨t, hexec, hthost, htseq⟩ := exec_cfg_next s
    rw [hexec]
    exact afterFirst (N := 0) hexec (fun n _ => run_of_not_busy (hthost.trans hhost) (htseq hseq) n)
  · cases hr : sampled i s with
    | none =>
      obtain ⟨hexec, hissue⟩ := refused_of_not_sampled hop hr
      rw [hexec]
      exact afterFirst (N := 0) hissue (fun n _ => run_of_not_busy hhost hseq n)
    | some r =>
      have hissue : issue i s = .next (s.start r) := by
        rw [issue_of_isOperation hop, issueSampled, hr]
      rw [exec_eq_finish_of_sampled hr, ← Running.finish_start r r s]
      exact afterFirst hissue (fun n hn => run_of_busy hhost rfl rfl hn)

/-- Under the invariant no running operation is going to a fault (R27, R161 (b)). -/
theorem Running.finish_ends {r : Running} {s : State} (hcursors : r.cursorsIn) (hchunk : s.cfg.chunk ≠ 0) :
    ∃ t, r.finish s = .next t := by
  have sending : ∀ {data off frames}, off < data.length → ∃ t, s.finishSending data off frames = .next t :=
    fun hoff => ⟨_, if_neg ((chunkSize_link_eq_zero_iff hoff).not.2 hchunk)⟩
  match r with
  | .dtx data off .idle stage frames =>
    simp only [Running.finish]
    split
    · rename_i hoff
      exact sending hoff
    · exact ⟨_, rfl⟩
  | .dtx data off .emittingData stage frames => exact sending (hcursors.2 (.inl rfl))
  | .dtx data off .emittingEndData stage frames => exact sending (hcursors.2 (.inr rfl))
  | .dtx _ _ .done _ _ => exact ⟨_, rfl⟩
  | .enc _ _ _ _ => exact ⟨_, rfl⟩
  | .dec _ _ => exact ⟨_, rfl⟩
  | .cmd _ _ none => exact ⟨_, rfl⟩
  | .cmd _ _ (some _) => exact ⟨_, rfl⟩
  | .ack _ => exact ⟨_, rfl⟩
  | .drx _ _ .collecting _ => exact ⟨_, rfl⟩
  | .drx _ _ .complete _ => exact ⟨_, rfl⟩
  | .drx _ _ (.failed _) _ => exact ⟨_, rfl⟩

/-- Settles O55: the outcome the operation is going to is a delivery, which ends in `IDLE`. -/
theorem busyAlwaysEnds : Obligations.BusyAlwaysEnds := by
  intro s hinv hseq hhost
  obtain ⟨r, hrun⟩ := Option.ne_none_iff_exists'.1 (hinv.busyRuns.1 hseq)
  obtain ⟨t, ht⟩ := Running.finish_ends (hinv.cursors r hrun) (hinv.chunkPos (by simp [hseq]))
  obtain ⟨res, out, -, rfl⟩ := Running.finish_next ht
  exact ⟨r.passesLeft, _, (run_of_busy hhost hseq hrun (Nat.le_refl _)).trans ht, rfl⟩

end Sys2Proof.Machine
end

section
/-! Bounds of results (spec/10_state.md R29, spec/20_memory.md R59): the result of a running operation fits `OUT` from
its issue to its end. -/

namespace Sys2Proof.Machine

open Sys2Proof

/-! ### Counts and bounds -/

theorem fits_of_le {bound : Option Nat} {n m : Nat} (h : fits bound n = true) (hle : m ≤ n) : fits bound m = true := by
  cases bound with
  | none => rfl
  | some b =>
    simp only [fits, decide_eq_true_eq] at h ⊢
    omega

theorem State.roomFor_iff {s : State} {n b : Nat} :
    s.roomFor n b = true ↔ fits s.params.maxFrames n = true ∧ fits s.params.maxData b = true := by
  simp [State.roomFor]

theorem State.outIn_iff {s : State} :
    s.outIn = true ↔ fits s.params.maxFrames s.mem.out.length = true ∧
      ∀ x ∈ s.mem.out, fits s.params.maxData x.length = true := by
  simp [State.outIn]

/-- R59: strings for which there is room may be delivered. -/
theorem outIn_deliver {s : State} {n b : Nat} {out : List Bytes} (hroom : s.roomFor n b = true) (hn : out.length ≤ n)
    (hb : ∀ x ∈ out, x.length ≤ b) (r : Results) : (s.deliver r out).outIn = true := by
  obtain ⟨hframes, hdata⟩ := State.roomFor_iff.1 hroom
  exact State.outIn_iff.2 ⟨fits_of_le hframes hn, fun x hx => fits_of_le hdata (hb x hx)⟩

theorem outIn_deliver_singleton {s : State} {b : Nat} {x : Bytes} (hroom : s.roomFor 1 b = true) (hx : x.length ≤ b)
    (r : Results) : (s.deliver r [x]).outIn = true :=
  outIn_deliver (out := [x]) hroom (Nat.le_refl 1) (by simpa using hx) r

theorem fits_zero (bound : Option Nat) : fits bound 0 = true := by
  cases bound <;> simp [fits]

theorem outIn_deliver_nil (s : State) (r : Results) : (s.deliver r []).outIn = true :=
  State.outIn_iff.2 ⟨fits_zero _, by simp⟩

theorem outIn_deliverString {s : State} {b : Nat} {r : Except OpError Bytes} (hroom : s.roomFor 1 b = true)
    (hb : ∀ x, r = .ok x → x.length ≤ b) : (s.deliverString r).outIn = true := by
  cases r with
  | ok x => exact outIn_deliver_singleton hroom (hb x rfl) _
  | error e => exact outIn_deliver_nil s _

theorem outIn_deliverDec {s : State} {b : Nat} {r : Except OpError Packet} (hroom : s.roomFor 1 b = true)
    (hb : ∀ p, r = .ok p → p.payload.length ≤ b) : (s.deliverDec r).outIn = true := by
  cases r with
  | ok p => exact outIn_deliver_singleton hroom (hb p rfl) _
  | error e => exact outIn_deliver_nil s _

/-- A failed `ENC` leaves `OUT`, which was within its bounds. -/
theorem outIn_deliverEnc {s : State} {b : Nat} {r : Except OpError Bytes} (hroom : s.roomFor 1 b = true)
    (hout : s.outIn = true) (hb : ∀ x, r = .ok x → x.length ≤ b) : (s.deliverEnc r).outIn = true := by
  cases r with
  | ok x => exact outIn_deliver_singleton hroom (hb x rfl) _
  | error e => exact hout

/-! ### The sizes of results -/

theorem length_le_of_encodePacket_ok {a : BitVec 32} {ty : Byte} {p f : Bytes} {outcap cap : Nat}
    (h : encodePacket a ty p outcap cap = .ok f) : f.length ≤ 11 + cap := by
  obtain ⟨hp, -, rfl⟩ := encodePacket_ok.1 h
  rw [frameOf_length]
  omega

theorem length_le_of_parseAck_ok {bytes x : Bytes} {a : BitVec 32} {cap : Nat} {successSet : List Byte}
    (h : parseAck bytes a cap successSet = .ok x) : x.length ≤ cap := by
  rcases parseAck_cases bytes a cap successSet with ⟨-, c, hc⟩ | ⟨p, status, rest, hp, -, hpayload, hack⟩
  · cases hc.symm.trans h
  · obtain ⟨hle, -⟩ := decodePacket_payload hp
    rw [hpayload, List.length_cons] at hle
    rw [hack] at h
    split at h <;> cases h
    omega

theorem length_le_of_receiveFrame_ok {a : BitVec 32} {cap : Nat} {f x : Bytes} {last : Bool}
    (h : receiveFrame a cap f = .ok (x, last)) : x.length ≤ cap := by
  obtain ⟨p, hp, rfl, -⟩ := receiveFrame_ok.1 h
  exact (decodePacket_payload hp).1

/-- R151: the data reassembled is at most `CAP` bytes for each frame. -/
theorem length_le_of_reassembleFrom_ok {a : BitVec 32} {cap : Nat} {frames : List Bytes} {acc x : Bytes}
    (h : reassembleFrom a cap frames acc = .ok x) : x.length ≤ acc.length + frames.length * cap := by
  induction frames generalizing acc with
  | nil =>
    cases h
    omega
  | cons f rest ih =>
    have hmul : (rest.length + 1) * cap = rest.length * cap + cap := Nat.succ_mul _ _
    rw [List.length_cons, hmul]
    unfold reassembleFrom at h
    split at h
    · cases h
    · rename_i payload hlast
      have := length_le_of_receiveFrame_ok hlast
      cases h
      rw [List.length_append]
      omega
    · rename_i payload hdata
      have := length_le_of_receiveFrame_ok hdata
      have hrest := ih h
      rw [List.length_append] at hrest
      omega

theorem length_keptFrame_le (r : Except OpError Bytes) : (keptFrame r).length ≤ 1 := by
  cases r <;> simp [keptFrame]

theorem length_le_of_mem_keptFrame {k : LinkConfig} {data : Bytes} {off : Nat} {f : Bytes}
    (h : f ∈ keptFrame (encodeChunk k data off)) : f.length ≤ 11 + k.cap := by
  cases he : encodeChunk k data off with
  | error e => simp [he, keptFrame] at h
  | ok g =>
    rw [he, keptFrame, List.mem_singleton] at h
    rw [h]
    exact length_le_of_encodePacket_ok he

theorem length_le_of_mem_framesFrom {k : LinkConfig} {data : Bytes} {fuel off : Nat} {f : Bytes}
    (h : f ∈ framesFrom k data fuel off) : f.length ≤ 11 + k.cap := by
  induction fuel generalizing off with
  | zero => cases h
  | succ fuel ih =>
    rcases Nat.lt_or_ge off data.length with hoff | hend
    · rw [framesFrom_succ hoff] at h
      rcases List.mem_append.1 h with h | h
      · exact length_le_of_mem_keptFrame h
      · exact ih h
    · rw [framesFrom_of_length_le hend] at h
      cases h

/-- R59, R141: one chunk less is left after a pass. -/
theorem ceilDiv_chunkSize {k : LinkConfig} {n off : Nat} (hk : 0 < k.chunkMax) (h : off < n) :
    ceilDiv (n - (off + chunkSize k n off)) k.chunkMax + 1 = ceilDiv (n - off) k.chunkMax := by
  rw [chunkSize_eq, ← Nat.sub_sub]
  exact ceilDiv_sub_min hk (by omega)

/-- R59, R141: the loop gives at most one frame for each chunk that is left. -/
theorem length_framesFrom_le {k : LinkConfig} (hk : 0 < k.chunkMax) (data : Bytes) (fuel off : Nat) :
    (framesFrom k data fuel off).length ≤ ceilDiv (data.length - off) k.chunkMax := by
  induction fuel generalizing off with
  | zero => exact Nat.zero_le _
  | succ fuel ih =>
    rcases Nat.lt_or_ge off data.length with hoff | hend
    · rw [framesFrom_succ hoff, List.length_append, ← ceilDiv_chunkSize hk hoff, Nat.add_comm]
      exact Nat.add_le_add (ih _) (length_keptFrame_le _)
    · rw [framesFrom_of_length_le hend]
      exact Nat.zero_le _

/-! ### The result fits, from the issue to the end -/

/-- R165 (g): an operation is accepted only if its result fits. -/
theorem resultFits_of_sampled {i : Instr} {s : State} {r : Running} (h : sampled i s = some r) : r.resultFits s := by
  cases i with
  | enc =>
    obtain ⟨x, hx, rfl⟩ := Option.map_eq_some_iff.1 h
    obtain ⟨-, hroom, -⟩ := encOperands_eq_some.1 hx
    exact hroom
  | dec =>
    obtain ⟨x, hx, rfl⟩ := Option.map_eq_some_iff.1 h
    obtain ⟨-, hroom, -⟩ := decOperands_eq_some.1 hx
    exact hroom
  | cmd =>
    obtain ⟨x, hx, rfl⟩ := Option.map_eq_some_iff.1 h
    obtain ⟨-, hroom, -⟩ := cmdOperands_eq_some.1 hx
    exact ⟨hroom, by simp⟩
  | ack =>
    obtain ⟨x, hx, rfl⟩ := Option.map_eq_some_iff.1 h
    obtain ⟨-, hroom, -⟩ := ackOperands_eq_some.1 hx
    exact hroom
  | dtx =>
    obtain ⟨data, hdata, rfl⟩ := Option.map_eq_some_iff.1 h
    obtain ⟨-, hroom, -⟩ := dtxOperands_eq_some.1 hdata
    exact ⟨hroom, by simp, by simp⟩
  | drx =>
    obtain ⟨frames, hframes, rfl⟩ := Option.map_eq_some_iff.1 h
    obtain ⟨-, hroom, hall⟩ := drxOperands_eq_some.1 hframes
    have hcount : frames.length = s.mem.inCount := Memory.length_stringsFrom hall
    exact ⟨hcount ▸ hroom, by simp⟩
  | cfg | tCommand | tData | tAck | tEndData => cases h

/-- An emitting pass keeps the count of frames and chunks within the chunks of the data. -/
theorem resultFits_emitChunk {data : Bytes} {off : Nat} {phase phase' : SenderPhase} {stage stage' : Bytes}
    {frames : List Bytes} {s : State} (hsize : chunkSize s.link data.length off ≠ 0)
    (h : Running.resultFits s (.dtx data off phase stage frames)) :
    Running.resultFits s (.dtx data (off + chunkSize s.link data.length off) phase' stage'
      (frames ++ keptFrame (encodeChunk s.link data off))) := by
  obtain ⟨hroom, hcount, hlen⟩ := h
  have hle := chunkSize_le s.link data.length off
  have hoff : off < data.length := by omega
  have hk : 0 < s.link.chunkMax := State.chunkMax_pos ((chunkSize_link_eq_zero_iff hoff).not.1 hsize)
  have hkept := length_keptFrame_le (encodeChunk s.link data off)
  have hleft : ceilDiv (data.length - (off + chunkSize s.link data.length off)) s.chunkMax + 1 =
      ceilDiv (data.length - off) s.chunkMax := ceilDiv_chunkSize hk hoff
  refine ⟨hroom, ?_, fun f hf => ?_⟩
  · rw [List.length_append]
    omega
  · rcases List.mem_append.1 hf with hf | hf
    · exact hlen f hf
    · exact length_le_of_mem_keptFrame hf

/-- A collecting pass adds at most one payload. -/
theorem resultFits_collect {frames : List Bytes} {i : Nat} {phase phase' : ReceiverPhase} {acc f x : Bytes}
    {last : Bool} {s : State} (hf : receiveFrame s.cfg.address s.cap f = .ok (x, last))
    (h : Running.resultFits s (.drx frames i phase acc)) :
    Running.resultFits s (.drx frames (i + 1) phase' (acc ++ x)) := by
  obtain ⟨hroom, hacc⟩ := h
  have hx := length_le_of_receiveFrame_ok hf
  refine ⟨hroom, ?_⟩
  rw [List.length_append, Nat.succ_mul]
  omega

@[simp] theorem deliverEnc_run (s : State) (r : Except OpError Bytes) : (s.deliverEnc r).run = none := by
  cases r <;> rfl

@[simp] theorem deliverDec_run (s : State) (r : Except OpError Packet) : (s.deliverDec r).run = none := by
  cases r <;> rfl

@[simp] theorem deliverString_run (s : State) (r : Except OpError Bytes) : (s.deliverString r).run = none :=
  (deliverString_ended s r).run

@[simp] theorem deliverFrames_run (s : State) (frames : List Bytes) : (s.deliverFrames frames).run = none := rfl

/-- A pass after which the operation still runs keeps the result within its bounds. -/
theorem resultFits_of_advance {r r' : Running} {s t : State} (h : advance r s = .next t) (hrun : t.run = some r')
    (hfit : r.resultFits s) : r'.resultFits s := by
  have emit : ∀ {data off phase stage frames}, Running.resultFits s (.dtx data off phase stage frames) →
      emitChunk data off stage frames s = .next t → r'.resultFits s := by
    intro data off phase stage frames hfit he
    unfold emitChunk at he
    split at he
    · cases he
    · rename_i hsize
      cases he
      cases hrun
      exact resultFits_emitChunk hsize hfit
  match r with
  | .enc _ _ _ _ => cases h; simp at hrun
  | .dec _ _ => cases h; simp at hrun
  | .cmd code params none =>
    simp only [advance] at h
    split at h
    · rename_i frame hframe
      cases h
      cases hrun
      refine ⟨hfit.1, fun f hf => ?_⟩
      cases hf
      exact length_le_of_encodePacket_ok hframe
    · cases h
      simp at hrun
  | .cmd _ _ (some _) => cases h; simp at hrun
  | .ack _ => cases h; simp at hrun
  | .dtx _ _ .idle _ _ => cases h; cases hrun; exact hfit
  | .dtx _ _ .emittingData _ _ => exact emit hfit h
  | .dtx _ _ .emittingEndData _ _ => exact emit hfit h
  | .dtx _ _ .done _ _ => cases h; simp at hrun
  | .drx frames i .collecting acc =>
    simp only [advance, collectFrame, Host.Outcome.next.injEq] at h
    split at h
    · cases h; cases hrun; exact hfit
    · split at h
      · cases h; cases hrun; exact hfit
      · rename_i hlast
        cases h; cases hrun; exact resultFits_collect hlast hfit
      · rename_i hdata
        cases h; cases hrun; exact resultFits_collect hdata hfit
  | .drx _ _ .complete _ => cases h; simp at hrun
  | .drx _ _ (.failed _) _ => cases h; simp at hrun

/-- R59: what a running operation delivers in the end fits `OUT`. -/
theorem outIn_of_finish {r : Running} {s t : State} (hcursors : r.cursorsIn) (hfit : r.resultFits s)
    (hout : s.outIn = true) (h : r.finish s = .next t) : t.outIn = true := by
  have sending : ∀ {data off phase stage frames}, Running.resultFits s (.dtx data off phase stage frames) →
      s.finishSending data off frames = .next t → t.outIn = true := by
    intro data off phase stage frames hfit h
    obtain ⟨hroom, hcount, hlen⟩ := hfit
    unfold State.finishSending at h
    split at h
    · cases h
    · rename_i hsize
      cases h
      have hle := chunkSize_le s.link data.length off
      have hk : 0 < s.link.chunkMax :=
        State.chunkMax_pos ((chunkSize_link_eq_zero_iff (show off < data.length by omega)).not.1 hsize)
      have hframes := length_framesFrom_le hk data (data.length - off) off
      rw [State.link_chunkMax] at hframes
      refine outIn_deliver hroom ?_ (fun f hf => ?_) _
      · rw [List.length_append]
        omega
      · rcases List.mem_append.1 hf with hf | hf
        · exact hlen f hf
        · exact length_le_of_mem_framesFrom hf
  have frames : ∀ {data off phase stage out}, Running.resultFits s (.dtx data off phase stage out) →
      (s.deliverFrames out).outIn = true := by
    rintro data off phase stage out ⟨hroom, hcount, hlen⟩
    exact outIn_deliver hroom (by omega) hlen _
  match r with
  | .enc _ _ _ _ => cases h; exact outIn_deliverEnc hfit hout (fun x hx => length_le_of_encodePacket_ok hx)
  | .dec _ _ => cases h; exact outIn_deliverDec hfit (fun p hp => (decodePacket_payload hp).1)
  | .cmd _ _ none => cases h; exact outIn_deliverString hfit.1 (fun x hx => length_le_of_encodePacket_ok hx)
  | .cmd _ _ (some frame) =>
    cases h
    exact outIn_deliverString hfit.1 (fun x hx => by cases hx; exact hfit.2 frame rfl)
  | .ack _ => cases h; exact outIn_deliverString hfit (fun x hx => length_le_of_parseAck_ok hx)
  | .dtx _ _ .idle _ _ =>
    simp only [Running.finish] at h
    split at h
    · exact sending hfit h
    · cases h; exact frames hfit
  | .dtx _ _ .emittingData _ _ => exact sending hfit h
  | .dtx _ _ .emittingEndData _ _ => exact sending hfit h
  | .dtx _ _ .done _ _ => cases h; exact frames hfit
  | .drx strings i .collecting acc =>
    cases h
    obtain ⟨hroom, hacc⟩ := hfit
    have hi : i ≤ strings.length := hcursors
    refine outIn_deliverString hroom (fun x hx => ?_)
    calc x.length ≤ acc.length + (strings.drop i).length * s.cap := length_le_of_reassembleFrom_ok hx
      _ ≤ i * s.cap + (strings.length - i) * s.cap := by rw [List.length_drop]; omega
      _ = strings.length * s.cap := by rw [← Nat.add_mul, Nat.add_sub_cancel' hi]
  | .drx strings i .complete acc =>
    cases h
    obtain ⟨hroom, hacc⟩ := hfit
    refine outIn_deliverString hroom (fun x hx => ?_)
    cases hx
    exact hacc.trans (Nat.mul_le_mul_right _ hcursors)
  | .drx _ _ (.failed _) _ => cases h; exact outIn_deliver_nil s _

/-- Settles O46: an operation is refused or goes to its delivery, which fits; no other instruction writes `OUT`. -/
theorem outStaysWithinBounds : Obligations.OutStaysWithinBounds := by
  intro i s t hout h
  rcases exec_next h with rfl | ⟨-, c, -, rfl⟩ | ⟨hop, -⟩ | ⟨-, -, rfl⟩
  · exact hout
  · exact hout
  · cases hr : sampled i s with
    | none =>
      obtain ⟨hsame, -⟩ := refused_of_not_sampled hop hr
      cases hsame.symm.trans h
      exact hout
    | some r =>
      obtain ⟨-, -, hcursors⟩ := sampled_eq_some hr
      rw [exec_eq_finish_of_sampled hr] at h
      exact outIn_of_finish hcursors (resultFits_of_sampled hr) hout h
  · rw [State.outIn_iff] at hout ⊢
    rwa [State.present_params, State.present_out]

end Sys2Proof.Machine
end

section
/-! The invariant (`State.Inv`): it holds after reset, every step keeps it, and under it every step has a next state. -/

namespace Sys2Proof.Machine

open Sys2Proof

/-! ### Strings of `IN` within their bounds -/

/-- R28: the length and the offsets of a stored string lie within `MAX_DATA`. -/
def InStr.inBounds (p : Config.Params) (x : InStr) : Prop :=
  (∀ n, x.len = some n → fits p.maxData n = true) ∧ ∀ q ∈ x.cells, fits p.maxData (q.1 + 1) = true

/-- R28: every stored string lies below `MAX_FRAMES` and is within its bounds. -/
def Memory.inBounds (p : Config.Params) (m : Memory) : Prop :=
  ∀ q ∈ m.inStrs, fits p.maxFrames (q.1 + 1) = true ∧ q.2.inBounds p

theorem InStr.inBounds_unwritten (p : Config.Params) : InStr.unwritten.inBounds p :=
  ⟨nofun, nofun⟩

theorem Memory.str_inBounds {p : Config.Params} {m : Memory} (h : m.inBounds p) (i : Nat) : (m.str i).inBounds p := by
  unfold Memory.str
  cases hg : Assoc.get i m.inStrs with
  | none => exact InStr.inBounds_unwritten p
  | some x => exact (h _ (Assoc.get_mem hg)).2

theorem Memory.inBounds_setStr {p : Config.Params} {m : Memory} {i : Nat} {x : InStr} (h : m.inBounds p)
    (hi : fits p.maxFrames (i + 1) = true) (hx : x.inBounds p) : (m.setStr i x).inBounds p := by
  intro q hq
  rcases Assoc.mem_set hq with rfl | hq
  · exact ⟨hi, hx⟩
  · exact h q hq

theorem InStr.inBounds_withLen {p : Config.Params} {x : InStr} {n : Nat} (h : x.inBounds p)
    (hn : fits p.maxData n = true) : InStr.inBounds p { x with len := some n } :=
  ⟨fun m hm => by cases hm; exact hn, h.2⟩

theorem InStr.inBounds_setCell {p : Config.Params} {x : InStr} {j : Nat} {v : Byte} (h : x.inBounds p)
    (hj : fits p.maxData (j + 1) = true) : InStr.inBounds p { x with cells := Assoc.set j v x.cells } := by
  refine ⟨h.1, fun q hq => ?_⟩
  rcases Assoc.mem_set hq with rfl | hq
  · exact hj
  · exact h.2 q hq

theorem InStr.mem_writeCells {cells : List Host.Cell} {j : Nat} {bytes : Bytes} {q : Host.Cell}
    (h : q ∈ InStr.writeCells cells j bytes) : q ∈ cells ∨ q.1 < j + bytes.length := by
  induction bytes generalizing cells j with
  | nil => exact .inl h
  | cons b rest ih =>
    rw [List.length_cons]
    rcases ih h with h | h
    · rcases Assoc.mem_set h with rfl | h
      · exact .inr (by simp)
      · exact .inl h
    · exact .inr (by omega)

theorem InStr.inBounds_put {p : Config.Params} {x : InStr} {bytes : Bytes} (h : x.inBounds p)
    (hbytes : fits p.maxData bytes.length = true) : (x.put bytes).inBounds p := by
  refine ⟨fun n hn => by cases hn; exact hbytes, fun q hq => ?_⟩
  rcases InStr.mem_writeCells hq with hq | hq
  · exact h.2 q hq
  · exact fits_of_le hbytes (by omega)

/-! ### What the updates of the state keep -/

/-- The invariant speaks of the parameters, the sequencer, the session, the results, the buffer spaces and the running
operation only. -/
theorem State.Inv.of_agree {s t : State} (h : s.Inv) (hparams : t.params = s.params) (hseq : t.seq = s.seq)
    (hcfg : t.cfg = s.cfg) (hres : t.res = s.res) (hmem : t.mem = s.mem) (hrun : t.run = s.run) : t.Inv := by
  obtain ⟨params, seq, cfg, args, res, mem, run, host, readData, draws⟩ := t
  subst hparams hseq hcfg hres hmem hrun
  exact ⟨h.paramsLegal, h.memWf, h.countIn, h.stringsIn, h.outIn, h.busyRuns, h.chunkPos, h.cursors, h.resultFits,
    h.statusOnly⟩

theorem State.Inv.run_eq_none {s : State} (h : s.Inv) (hseq : s.seq ≠ .busy) : s.run = none := by
  by_contra hrun
  exact hseq (h.busyRuns.2 hrun)

/-- A change of the storage of `IN` while nothing runs. -/
theorem State.Inv.withMem {s : State} {m : Memory} (h : s.Inv) (hseq : s.seq ≠ .busy) (hwf : m.wf)
    (hcount : fits s.params.maxFrames m.inCount = true) (hstrings : m.inBounds s.params) (hout : m.out = s.mem.out) :
    (s.withMem m).Inv where
  paramsLegal := h.paramsLegal
  memWf := hwf
  countIn := hcount
  stringsIn := hstrings
  outIn := by
    rw [State.outIn_iff, State.withMem_mem, State.withMem_params, hout]
    exact State.outIn_iff.1 h.outIn
  busyRuns := h.busyRuns
  chunkPos := h.chunkPos
  cursors := h.cursors
  resultFits := by
    intro r hr
    cases (h.run_eq_none hseq).symm.trans hr
  statusOnly := h.statusOnly

theorem State.Inv.present {s : State} (h : s.Inv) (bytes : Bytes) : (s.present bytes).Inv := by
  rcases s.present_cases bytes with ⟨hseq, hroom, heq⟩ | ⟨-, heq⟩
  · obtain ⟨hcount, hdata⟩ := State.roomFor_iff.1 hroom
    rw [heq]
    refine h.withMem hseq (Memory.wf_append h.memWf bytes) hcount ?_ rfl
    exact Memory.inBounds_setStr h.stringsIn hcount (InStr.inBounds_put (Memory.str_inBounds h.stringsIn _) hdata)
  · rw [heq]
    exact h

theorem State.Inv.inputWrite {s : State} {m : Memory} (h : s.Inv) (hseq : s.seq ≠ .busy) (hm : InputWrite s m) :
    (s.withMem m).Inv := by
  cases hm with
  | len i n hi hn =>
    exact h.withMem hseq (Memory.wf_setLen h.memWf i n) h.countIn
      (Memory.inBounds_setStr h.stringsIn hi (InStr.inBounds_withLen (Memory.str_inBounds h.stringsIn i) hn)) rfl
  | byte i j v hi hj =>
    exact h.withMem hseq (Memory.wf_setByte h.memWf i j v) h.countIn
      (Memory.inBounds_setStr h.stringsIn hi (InStr.inBounds_setCell (Memory.str_inBounds h.stringsIn i) hj)) rfl
  | count n hn => exact h.withMem hseq (Memory.wf_withCount h.memWf n) hn h.stringsIn rfl

/-- Settles O4: after reset nothing runs and nothing is stored. -/
theorem resetMeetsTheInvariant : Obligations.ResetMeetsTheInvariant where
  paramsLegal := rfl
  memWf := State.reset_mem_wf
  countIn := rfl
  stringsIn := fun _ hp => by cases hp
  outIn := rfl
  busyRuns := by decide
  chunkPos := fun h => absurd rfl h
  cursors := fun _ hr => by cases hr
  resultFits := fun _ hr => by cases hr
  statusOnly := fun h => by cases h

/-- R7, R33: reset leaves the parameters, and everything else is as after reset. -/
theorem State.Inv.resetBlock {s : State} (h : s.Inv) : s.resetBlock.Inv where
  paramsLegal := h.paramsLegal
  memWf := resetMeetsTheInvariant.memWf
  countIn := fits_zero _
  stringsIn := fun _ hp => by cases hp
  outIn := State.outIn_iff.2 ⟨fits_zero _, fun _ hx => by cases hx⟩
  busyRuns := resetMeetsTheInvariant.busyRuns
  chunkPos := resetMeetsTheInvariant.chunkPos
  cursors := resetMeetsTheInvariant.cursors
  resultFits := fun _ hr => by cases hr
  statusOnly := resetMeetsTheInvariant.statusOnly

theorem State.Inv.openSession {s : State} {c : Session} (h : s.Inv) (hc : cfgOperands s = some c) :
    (s.openSession c).Inv := by
  obtain ⟨hunconf, -, -, -, hchunk⟩ := cfgOperands_eq_some.1 hc
  have hrun : s.run = none := h.run_eq_none (by simp [hunconf])
  exact
    { paramsLegal := h.paramsLegal
      memWf := h.memWf
      countIn := h.countIn
      stringsIn := h.stringsIn
      outIn := h.outIn
      busyRuns := by simp [hrun]
      chunkPos := fun _ => hchunk
      cursors := h.cursors
      resultFits := fun r hr => by cases hrun.symm.trans hr
      statusOnly := h.statusOnly }

/-- R163: a run with its cursors in range and a result that fits, in a session. -/
theorem State.Inv.start {s : State} {r : Running} (h : s.Inv) (hseq : s.seq ≠ .unconf) (hcursors : r.cursorsIn)
    (hfit : r.resultFits s) : (s.start r).Inv where
  paramsLegal := h.paramsLegal
  memWf := h.memWf
  countIn := h.countIn
  stringsIn := h.stringsIn
  outIn := h.outIn
  busyRuns := by simp
  chunkPos := fun _ => h.chunkPos hseq
  cursors := fun r' hr => by cases hr; exact hcursors
  resultFits := fun r' hr => by
    cases hr
    cases r <;> exact hfit
  statusOnly := h.statusOnly

/-- A pass of a running operation is a start from where it stands. -/
theorem State.Inv.keepRunning {s : State} {r : Running} (h : s.Inv) (hbusy : s.seq = .busy) (hcursors : r.cursorsIn)
    (hfit : r.resultFits s) : (s.keepRunning r).Inv :=
  (h.start (by simp [hbusy]) hcursors hfit).of_agree rfl hbusy rfl rfl rfl rfl

theorem State.Inv.deliver {s : State} {res : Results} {out : List Bytes} (h : s.Inv) (hseq : s.seq ≠ .unconf)
    (hres : res.statusOnlyOnError) (hout : (s.deliver res out).outIn = true) : (s.deliver res out).Inv where
  paramsLegal := h.paramsLegal
  memWf := Memory.wf_withOut h.memWf out
  countIn := h.countIn
  stringsIn := h.stringsIn
  outIn := hout
  busyRuns := by simp
  chunkPos := fun _ => h.chunkPos hseq
  cursors := fun _ hr => by cases hr
  resultFits := fun _ hr => by cases hr
  statusOnly := hres

/-! ### What the meanings keep -/

theorem State.Inv.exec {i : Instr} {s t : State} (h : s.Inv) (hexec : exec i s = .next t) : t.Inv := by
  rcases exec_next hexec with rfl | ⟨-, c, hc, rfl⟩ | ⟨-, hidle, r, out, hr, rfl⟩ | ⟨-, -, rfl⟩
  · exact h
  · exact h.openSession hc
  · exact h.deliver (by simp [hidle]) hr (outStaysWithinBounds i s _ h.outIn hexec)
  · exact h.present _

theorem State.Inv.issue {i : Instr} {s t : State} (h : s.Inv) (hissue : issue i s = .next t) : t.Inv := by
  rcases issue_next hissue with rfl | ⟨c, hc, rfl⟩ | ⟨r, hr, rfl⟩
  · exact h
  · exact h.openSession hc
  · obtain ⟨-, hidle, hcursors⟩ := sampled_eq_some hr
    exact h.start (by simp [hidle]) hcursors (resultFits_of_sampled hr)

/-- A pass leaves `OUT`, or it ends in the outcome the operation is going to, which fits. -/
theorem outIn_of_advance {r : Running} {s t : State} (hcursors : r.cursorsIn) (hfit : r.resultFits s)
    (hout : s.outIn = true) (h : advance r s = .next t) : t.outIn = true := by
  rcases advance_leadsOn r s with hends | ⟨r', hnext, -, -⟩
  · exact outIn_of_finish hcursors hfit hout (hends.symm.trans h)
  · cases hnext.symm.trans h
    exact hout

theorem State.Inv.advance {r : Running} {s t : State} (h : s.Inv) (hbusy : s.seq = .busy) (hrun : s.run = some r)
    (hadvance : advance r s = .next t) : t.Inv := by
  have hcursors := h.cursors r hrun
  have hfit := h.resultFits r hrun
  have hout := outIn_of_advance hcursors hfit h.outIn hadvance
  rcases advance_next hadvance with ⟨r', rfl, hkeep⟩ | ⟨res, out, hres, rfl⟩
  · exact h.keepRunning hbusy (hkeep hcursors) (resultFits_of_advance hadvance rfl hfit)
  · exact h.deliver (by simp [hbusy]) hres hout

theorem State.Inv.tick {s t : State} (h : s.Inv) (htick : tick s = .next t) : t.Inv := by
  rcases tick_next htick with rfl | ⟨hbusy, r, hrun, hadvance⟩
  · exact h
  · exact h.advance hbusy hrun hadvance

theorem State.Inv.hostEffect {a : HostAct} {s t : State} (h : s.Inv) (heffect : HostEffect a s t) : t.Inv := by
  cases heffect with
  | nothing ht => exact ht ▸ h
  | executes i _ hexec => exact h.exec hexec
  | handsOver bytes ht => exact ht ▸ h.present bytes
  | resets _ ht => exact ht ▸ h.resetBlock
  | issues v i _ _ hissue => exact h.issue hissue
  | writesArgs args _ ht => exact ht ▸ h.of_agree rfl rfl rfl rfl rfl rfl
  | writesInput m hseq hm ht => exact ht ▸ h.inputWrite hseq hm
  | reads v n ht => exact ht ▸ h.of_agree rfl rfl rfl rfl rfl rfl
  | runs _ htick => exact h.tick htick

theorem State.Inv.withHost {s : State} (h : s.Inv) (l : List HostAct) : (s.withHost l).Inv :=
  h.of_agree rfl rfl rfl rfl rfl rfl

/-- Settles O5: a step is a pass of the sequencer or a host action, and each keeps the invariant. -/
theorem everyStepKeepsTheInvariant : Obligations.EveryStepKeepsTheInvariant := by
  intro s t h hstep
  rcases step_next hstep with ⟨-, htick⟩ | ⟨a, rest, -, heffect⟩
  · exact h.tick htick
  · exact (h.withHost rest).hostEffect heffect

/-! ### Every step has a next state -/

theorem State.Inv.tick_total {s : State} (h : s.Inv) : ∃ t, Machine.tick s = .next t := by
  by_cases hbusy : s.seq = .busy
  · obtain ⟨r, hrun⟩ := Option.ne_none_iff_exists'.1 (h.busyRuns.1 hbusy)
    rw [tick_of_busy hbusy hrun]
    rcases advance_leadsOn r s with hends | ⟨r', hnext, -, -⟩
    · rw [hends]
      exact Running.finish_ends (h.cursors r hrun) (h.chunkPos (by simp [hbusy]))
    · exact ⟨_, hnext⟩
  · exact ⟨s, tick_of_not_busy hbusy⟩

theorem State.Inv.exec_total {s : State} (h : s.Inv) (i : Instr) : ∃ t, Machine.exec i s = .next t := by
  by_cases hop : isOperation i = true
  · cases hr : sampled i s with
    | none => exact ⟨s, (refused_of_not_sampled hop hr).1⟩
    | some r =>
      obtain ⟨-, hidle, hcursors⟩ := sampled_eq_some hr
      rw [exec_eq_finish_of_sampled hr]
      exact Running.finish_ends hcursors (h.chunkPos (by simp [hidle]))
  · cases i with
    | cfg =>
      obtain ⟨t, ht, -⟩ := exec_cfg_next s
      exact ⟨t, ht⟩
    | tCommand | tData | tAck | tEndData => exact ⟨_, rfl⟩
    | enc | dec | cmd | ack | dtx | drx => exact absurd rfl hop

/-- An issue answers a next state from every state (R163). -/
theorem issue_total (i : Instr) (s : State) : ∃ t, issue i s = .next t := by
  cases i with
  | cfg =>
    obtain ⟨t, ht, -⟩ := exec_cfg_next s
    exact ⟨t, ht⟩
  | enc | dec | cmd | ack | dtx | drx | tCommand | tData | tAck | tEndData => exact ⟨_, rfl⟩

theorem issueWord_total (w : Byte) (s : State) : ∃ t, issueWord w s = .next t := by
  unfold issueWord
  split
  · exact ⟨s, rfl⟩
  · exact issue_total _ s

theorem writeRegister_total (index v : Nat) (s : State) : ∃ t, writeRegister index v s = .next t := by
  unfold writeRegister
  split
  · exact ⟨_, rfl⟩
  · rename_i r _
    cases r with
    | op => exact issueWord_total _ s
    | _ => exact ⟨_, rfl⟩

theorem State.Inv.hostAction_total {s : State} (h : s.Inv) (a : HostAct) : ∃ t, hostAction a s = .next t := by
  cases a with
  | operate w =>
    rw [hostAction_operate, operate]
    split
    · exact ⟨_, rfl⟩
    · exact h.exec_total _
  | carry bytes =>
    rw [hostAction_carry, carryBytes]
    split
    · exact ⟨_, rfl⟩
    · exact h.exec_total _
  | writeReg index v => exact writeRegister_total index v s
  | wait => exact h.tick_total
  | _ => exact ⟨_, rfl⟩

/-- Settles O6: the only fault is a `DTX` that makes no progress, and the invariant excludes it. -/
theorem noStepStopsUnderTheInvariant : Obligations.NoStepStopsUnderTheInvariant := by
  intro s h
  cases hhost : s.host with
  | nil =>
    rw [step_of_host_nil hhost]
    exact h.tick_total
  | cons a rest =>
    rw [step_of_host_cons hhost]
    exact (h.withHost rest).hostAction_total a

end Sys2Proof.Machine
end

section
/-! Reset, the session and the sequencer (spec/10_state.md R22, R26; spec/44_system_ops.md R160 to R162): what changes
them, and what causes it. -/

namespace Sys2Proof.Machine

open Sys2Proof

/-! ### Reset -/

/-- Settles O1: each register, read after reset. -/
theorem resetReadsUnconfigured : Obligations.ResetReadsUnconfigured :=
  ⟨fun r => by cases r <;> rfl, rfl, fun _ => rfl, rfl⟩

/-- Settles O2: both triggers are the one reset of the block. -/
theorem resetFromAnyState : Obligations.ResetFromAnyState := by
  intro s v
  exact ⟨s.resetBlock, rfl, rfl, rfl, ⟨rfl, rfl, rfl, rfl, rfl, rfl⟩, rfl, rfl, rfl, fun _ => rfl, rfl, rfl, rfl, rfl,
    rfl, rfl, rfl, rfl, rfl, rfl⟩

/-! ### `CFG` -/

theorem exec_cfg_of_accepted {s : State} {c : Session} (h : cfgOperands s = some c) :
    exec .cfg s = .next (s.openSession c) := by
  simp only [exec, execCfg, h]

theorem exec_cfg_of_refused {s : State} (h : cfgOperands s = none) : exec .cfg s = .next s := by
  simp only [exec, execCfg, h]

/-- Settles O10: the operands are accepted, and the session they open differs in nothing else. -/
theorem cfgOpensTheSession : Obligations.CfgOpensTheSession := by
  intro s a c k hunconf ha hc hk hne
  exact exec_cfg_of_accepted (cfgOperands_eq_some (c := ⟨a, c, k⟩) |>.2 ⟨hunconf, ha, hc, hk, hne⟩)

/-- Settles O11: operands that are accepted meet none of the grounds. -/
theorem cfgRefusedChangesNothing : Obligations.CfgRefusedChangesNothing := by
  intro s hground
  refine exec_cfg_of_refused (Option.eq_none_iff_forall_ne_some.2 (fun c hc => ?_))
  obtain ⟨hunconf, ha, hch, hk, hne⟩ := cfgOperands_eq_some.1 hc
  simp [hunconf, ha, hch, hk, Reg.known] at hground
  exact hne hground

/-! ### Parameters -/

theorem exec_params {i : Instr} {s t : State} (h : exec i s = .next t) : t.params = s.params := by
  rcases exec_next h with rfl | ⟨-, c, -, rfl⟩ | ⟨-, -, r, out, -, rfl⟩ | ⟨-, -, rfl⟩
  · rfl
  · rfl
  · rfl
  · exact State.present_params s _

theorem issue_params {i : Instr} {s t : State} (h : issue i s = .next t) : t.params = s.params := by
  rcases issue_next h with rfl | ⟨c, -, rfl⟩ | ⟨r, -, rfl⟩ <;> rfl

theorem hostEffect_params {a : HostAct} {s t : State} (h : HostEffect a s t) : t.params = s.params := by
  cases h with
  | nothing ht => rw [ht]
  | executes i _ hexec => exact exec_params hexec
  | handsOver bytes ht => rw [ht, State.present_params]
  | resets _ ht => rw [ht, State.resetBlock_params]
  | issues v i _ _ hissue => exact issue_params hissue
  | writesArgs args _ ht => rw [ht, State.withArgs_params]
  | writesInput m _ _ ht => rw [ht, State.withMem_params]
  | reads v n ht => rw [ht]
  | runs _ htick => exact (tick_keepsInputs htick).params

/-- Settles O7: neither a pass of the sequencer nor a host action changes a parameter. -/
theorem parametersNeverChange : Obligations.ParametersNeverChange := by
  intro s t h
  rcases step_next h with ⟨-, htick⟩ | ⟨a, rest, -, heffect⟩
  · exact (tick_keepsInputs htick).params
  · exact hostEffect_params (s := s.withHost rest) heffect

/-! ### What moves the sequencer and the session -/

/-- The host action writes the op word of `CFG`, waited for or not. -/
def HostAct.WritesCfg (a : HostAct) : Prop :=
  a = .operate 0x01 ∨ ∃ v, a = .writeReg 0x01 v ∧ BitVec.ofNat 8 v = 0x01

/-- The host action resets the block. -/
def HostAct.Resets (a : HostAct) : Prop := a = .resetInput ∨ ∃ v, a = .writeReg 0x1A v

/-- Everything a host action can do to `STATE` and the session, with its cause: nothing, open a session, issue an
operation, reset, or let the running operation make a pass. -/
inductive ControlEffect (a : HostAct) (s t : State) : Prop
  | keeps (hseq : t.seq = s.seq) (hcfg : t.cfg = s.cfg)
  | opens (ha : a.WritesCfg) (c : Session) (hc : cfgOperands s = some c) (h : t = s.openSession c)
  | starts (v : Nat) (i : Instr) (r : Running) (ha : a = .writeReg 0x01 v) (hd : decodeOp (BitVec.ofNat 8 v) = .ok i)
      (hr : sampled i s = some r) (h : t = s.start r)
  | resets (ha : a.Resets) (h : t = s.resetBlock)
  | passes (ha : a = .wait) (h : tick s = .next t)

theorem controlEffect_of_exec {a : HostAct} {i : Instr} {s t : State} (h : exec i s = .next t)
    (ha : i = .cfg → a.WritesCfg) : ControlEffect a s t := by
  rcases exec_next h with rfl | ⟨hi, c, hc, rfl⟩ | ⟨-, hidle, r, out, -, rfl⟩ | ⟨-, -, rfl⟩
  · exact .keeps rfl rfl
  · exact .opens (ha hi) c hc rfl
  · exact .keeps (by simp [hidle]) rfl
  · exact .keeps (State.present_seq s _) (State.present_cfg s _)

theorem controlEffect_of_issue {v : Nat} {i : Instr} {s t : State} (hd : decodeOp (BitVec.ofNat 8 v) = .ok i)
    (h : issue i s = .next t) : ControlEffect (.writeReg 0x01 v) s t := by
  rcases decodeOp_ok hd with ⟨hv, rfl⟩ | ⟨-, hop⟩
  · exact controlEffect_of_exec (i := .cfg) h (fun _ => .inr ⟨v, rfl, hv⟩)
  · rw [issue_of_isOperation hop, issueSampled, Host.Outcome.next.injEq] at h
    split at h
    · subst h
      exact .keeps rfl rfl
    · rename_i r hr
      exact .starts v i r rfl hd hr h.symm

theorem controlEffect_of_hostEffect {a : HostAct} {s t : State} (h : HostEffect a s t) : ControlEffect a s t := by
  cases h with
  | nothing ht => exact .keeps (by rw [ht]) (by rw [ht])
  | executes i ha hexec =>
    refine controlEffect_of_exec hexec (fun hcfg => ?_)
    rcases ha with ⟨w, rfl, hd⟩ | ⟨b, rfl, hd⟩
    · rcases decodeOp_ok hd with ⟨rfl, -⟩ | ⟨-, hop⟩
      · exact .inl rfl
      · cases (hcfg ▸ hop : isOperation .cfg = true)
    · obtain ⟨-, -, hne⟩ := decodeFrame_ok hd
      exact absurd hcfg hne
  | handsOver bytes ht => exact .keeps (by rw [ht, State.present_seq]) (by rw [ht, State.present_cfg])
  | resets ha ht => exact .resets ha ht
  | issues v i ha hd hissue => exact ha ▸ controlEffect_of_issue hd hissue
  | writesArgs args _ ht => exact .keeps (by rw [ht, State.withArgs_seq]) (by rw [ht, State.withArgs_cfg])
  | writesInput m _ _ ht => exact .keeps (by rw [ht, State.withMem_seq]) (by rw [ht, State.withMem_cfg])
  | reads v n ht => exact .keeps (by rw [ht]) (by rw [ht])
  | runs ha htick => exact .passes ha htick

/-- What is sampled does not depend on what the host asks next. -/
theorem sampled_withHost (i : Instr) (s : State) (l : List HostAct) : sampled i (s.withHost l) = sampled i s := by
  cases i <;> rfl

theorem cfgOperands_withHost (s : State) (l : List HostAct) : cfgOperands (s.withHost l) = cfgOperands s := rfl

theorem State.cfgNext_of_writesCfg {s : State} {a : HostAct} {rest : List HostAct} {c : Session}
    (hhost : s.host = a :: rest) (ha : a.WritesCfg) (hc : cfgOperands (s.withHost rest) = some c) : s.CfgNext c := by
  refine ⟨?_, hc⟩
  rw [hhost]
  rcases ha with rfl | ⟨v, rfl, hv⟩
  · exact .inl rfl
  · exact .inr ⟨v, rfl, hv⟩

theorem State.resetNext_of_resets {s : State} {a : HostAct} {rest : List HostAct} (hhost : s.host = a :: rest)
    (ha : a.Resets) : s.ResetNext := by
  unfold State.ResetNext
  rw [hhost]
  rcases ha with rfl | ⟨v, rfl⟩
  · exact .inl rfl
  · exact .inr ⟨v, rfl⟩

theorem State.seq_of_cfgOperands {s : State} {c : Session} (h : cfgOperands s = some c) : s.seq = .unconf :=
  (cfgOperands_eq_some.1 h).1

/-- Settles O8: of the effects a host action has on the session, only an accepted `CFG` and reset change it. -/
theorem sessionChangesOnlyByCfgOrReset : Obligations.SessionChangesOnlyByCfgOrReset := by
  intro s t h hne
  rcases step_next h with ⟨-, htick⟩ | ⟨a, rest, hhost, heffect⟩
  · exact absurd (tick_keepsInputs htick).cfg hne
  · cases controlEffect_of_hostEffect heffect with
    | keeps hseq hcfg => exact absurd hcfg hne
    | opens ha c hc ht =>
      subst ht
      exact .inl ⟨State.seq_of_cfgOperands hc, rfl, State.cfgNext_of_writesCfg hhost ha hc⟩
    | starts v i r ha hd hr ht =>
      subst ht
      exact absurd rfl hne
    | resets ha ht =>
      subst ht
      exact .inr ⟨State.resetNext_of_resets hhost ha, rfl⟩
    | passes ha htick => exact absurd (tick_keepsInputs htick).cfg hne

/-! ### The transitions of `STATE` -/

theorem step_of_host_head {s : State} {a : HostAct} (h : s.host.head? = some a) :
    step s = hostAction a (s.withHost s.host.tail) := by
  obtain ⟨rest, hhost⟩ := List.head?_eq_some_iff.1 h
  rw [step_of_host_cons hhost, hhost, List.tail_cons]

theorem step_of_resetNext {s : State} (h : s.ResetNext) : step s = .next (s.withHost s.host.tail).resetBlock := by
  rcases h with h | ⟨v, h⟩ <;> exact step_of_host_head h

theorem step_of_cfgNext {s : State} {c : Session} (h : s.CfgNext c) :
    step s = .next ((s.withHost s.host.tail).openSession c) := by
  obtain ⟨hhost, hc⟩ := h
  have hexec := exec_cfg_of_accepted ((cfgOperands_withHost s s.host.tail).trans hc)
  rcases hhost with hhost | ⟨v, hhost, hv⟩
  · exact (step_of_host_head hhost).trans hexec
  · have hissue : issueWord (BitVec.ofNat 8 v) (s.withHost s.host.tail) = exec .cfg (s.withHost s.host.tail) := by
      rw [hv]
      rfl
    exact (step_of_host_head hhost).trans (hissue.trans hexec)

theorem step_of_issueNext {s : State} {r : Running} (h : s.IssueNext r) :
    s.seq = .idle ∧ step s = .next ((s.withHost s.host.tail).start r) := by
  obtain ⟨v, i, hhost, hd, hr⟩ := h
  obtain ⟨hop, hidle, -⟩ := sampled_eq_some hr
  refine ⟨hidle, (step_of_host_head hhost).trans ((issueWord_of_decodeOp hd _).trans ?_)⟩
  rw [issue_of_isOperation hop, issueSampled, sampled_withHost, hr]

/-- A pass that changes `STATE` completes the running operation: from `BUSY` to `IDLE`, with nothing running. -/
theorem tick_completes {s t : State} (h : tick s = .next t) (hne : t.seq ≠ s.seq) :
    s.seq = .busy ∧ t.seq = .idle ∧ t.run = none ∧ ∃ r, s.run = some r ∧ advance r s = .next t := by
  rcases tick_next h with rfl | ⟨hbusy, r, hrun, hadvance⟩
  · exact absurd rfl hne
  · rcases advance_next hadvance with ⟨r', rfl, -⟩ | ⟨res, out, -, rfl⟩
    · exact absurd rfl hne
    · exact ⟨hbusy, rfl, rfl, r, hrun, hadvance⟩

/-- Settles O9: the three host actions are followed forward; a change of `STATE` is followed back to its cause. -/
theorem sequencerTransitions : Obligations.SequencerTransitions := by
  intro s t h
  refine ⟨fun hreset => ?_, fun c hc => ?_, fun r hr => ?_, fun hne => ?_⟩
  · obtain rfl := Host.Outcome.next.inj ((step_of_resetNext hreset).symm.trans h)
    rfl
  · obtain rfl := Host.Outcome.next.inj ((step_of_cfgNext hc).symm.trans h)
    exact ⟨State.seq_of_cfgOperands hc.2, rfl⟩
  · obtain ⟨hidle, hstep⟩ := step_of_issueNext hr
    obtain rfl := Host.Outcome.next.inj (hstep.symm.trans h)
    exact ⟨hidle, rfl⟩
  · rcases step_next h with ⟨hhost, htick⟩ | ⟨a, rest, hhost, heffect⟩
    · have hself : s.withHost s.host.tail = s := by
        rw [hhost, List.tail_nil, ← hhost]
        rfl
      obtain ⟨hbusy, hidle, hrun, hpass⟩ := tick_completes htick hne
      exact .inr (.inr (.inr ⟨hbusy, hidle, .inl hhost, hrun, hself.symm ▸ hpass⟩))
    · cases controlEffect_of_hostEffect heffect with
      | keeps hseq hcfg => exact absurd hseq hne
      | opens ha c hc ht =>
        subst ht
        exact .inr (.inl ⟨State.seq_of_cfgOperands hc, rfl, c, State.cfgNext_of_writesCfg hhost ha hc⟩)
      | starts v i r ha hd hr ht =>
        subst ht
        obtain ⟨-, hidle, -⟩ := sampled_eq_some hr
        rw [sampled_withHost] at hr
        exact .inr (.inr (.inl ⟨hidle, rfl, r, ⟨v, i, by simp [hhost, ha], hd, hr⟩, rfl⟩))
      | resets ha ht =>
        subst ht
        exact .inl ⟨rfl, State.resetNext_of_resets hhost ha⟩
      | passes ha htick =>
        obtain ⟨hbusy, hidle, hrun, hpass⟩ := tick_completes htick hne
        rw [hhost, List.tail_cons]
        exact .inr (.inr (.inr ⟨hbusy, hidle, .inr (by simp [hhost, ha]), hrun, hpass⟩))

end Sys2Proof.Machine
end

section
/-! The six operations in general (spec/44_system_ops.md R165, spec/60_exceptions.md R173, R179): on which grounds they
are refused, what their results depend on, and how they end. -/

namespace Sys2Proof.Machine

open Sys2Proof

/-! ### Strings that are not wholly written -/

/-- R165 (f): the length, or a byte below it, has not been written. -/
def InStr.Incomplete (x : InStr) : Prop :=
  x.len = none ∨ ∃ n j, x.len = some n ∧ j < n ∧ Assoc.get j x.cells = none

theorem InStr.bytesFrom_eq_none {cells : List Host.Cell} {i n k : Nat} (hk : k < n)
    (h : Assoc.get (i + k) cells = none) : InStr.bytesFrom cells i n = none := by
  induction n generalizing i k with
  | zero => cases hk
  | succ n ih =>
    unfold InStr.bytesFrom
    cases k with
    | zero =>
      rw [Nat.add_zero] at h
      rw [h]
    | succ k =>
      rw [ih (i := i + 1) (k := k) (by omega) (by rwa [Nat.add_right_comm])]
      split
      · rename_i hnone
        cases hnone
      · rfl

theorem InStr.read_of_incomplete {x : InStr} (h : x.Incomplete) : x.read = none := by
  unfold InStr.read
  rcases h with h | ⟨n, j, h, hj, hnone⟩
  · rw [h]
  · rw [h]
    exact InStr.bytesFrom_eq_none hj (by rwa [Nat.zero_add])

theorem Memory.operand_of_incomplete {m : Memory} {i : Nat} (h : (m.str i).Incomplete) : m.operand i = none := by
  unfold Memory.operand
  rw [InStr.read_of_incomplete h, ite_self]

theorem Memory.stringsFrom_eq_none {m : Memory} {i n k : Nat} (hk : k < n) (h : (m.str (i + k)).Incomplete) :
    m.stringsFrom i n = none := by
  induction n generalizing i k with
  | zero => cases hk
  | succ n ih =>
    unfold Memory.stringsFrom
    cases k with
    | zero =>
      rw [Nat.add_zero] at h
      rw [InStr.read_of_incomplete h]
    | succ k =>
      rw [ih (i := i + 1) (k := k) (by omega) (by rwa [Nat.add_right_comm])]
      split
      · rename_i hnone
        cases hnone
      · rfl

/-! ### Refusals -/

/-- R163, R165: everything that holds where one of the six operations is accepted. -/
structure Accepted (i : Instr) (s : State) : Prop where
  /-- R165 (a). -/
  idle : s.seq = .idle
  /-- R165 (e), (f): the strings of `IN` it reads are there and wholly written. -/
  string : i ≠ .drx → s.mem.operand 0 ≠ none
  strings : i = .drx → s.mem.operands ≠ none
  /-- R165 (f): the operand registers it reads have been written. -/
  address : i = .enc ∨ i = .dec → s.args.address.defined = true
  encArgs : i = .enc → s.args.ptype.defined = true ∧ s.args.outcap.defined = true
  code : i = .cmd → s.args.code.defined = true
  /-- R165 (g): its result fits. -/
  frameRoom : i = .enc ∨ i = .cmd → s.roomFor 1 (11 + s.cap) = true
  payloadRoom : i = .dec ∨ i = .ack → s.roomFor 1 s.cap = true
  framesRoom : i = .dtx → ∀ data, s.mem.operand 0 = some data →
    s.roomFor (ceilDiv data.length s.chunkMax) (11 + s.cap) = true
  dataRoom : i = .drx → s.roomFor 1 (s.mem.inCount * s.cap) = true

theorem accepted_of_sampled {i : Instr} {s : State} {r : Running} (h : sampled i s = some r) : Accepted i s := by
  cases i with
  | enc =>
    obtain ⟨x, hx, -⟩ := Option.map_eq_some_iff.1 h
    obtain ⟨hidle, hroom, ha, hty, ho, hp⟩ := encOperands_eq_some.1 hx
    constructor <;> simp [hidle, hroom, ha, hty, ho, hp, Reg.known]
  | dec =>
    obtain ⟨x, hx, -⟩ := Option.map_eq_some_iff.1 h
    obtain ⟨hidle, hroom, ha, hb⟩ := decOperands_eq_some.1 hx
    constructor <;> simp [hidle, hroom, ha, hb, Reg.known]
  | cmd =>
    obtain ⟨x, hx, -⟩ := Option.map_eq_some_iff.1 h
    obtain ⟨hidle, hroom, hc, hp⟩ := cmdOperands_eq_some.1 hx
    constructor <;> simp [hidle, hroom, hc, hp, Reg.known]
  | ack =>
    obtain ⟨x, hx, -⟩ := Option.map_eq_some_iff.1 h
    obtain ⟨hidle, hroom, hb⟩ := ackOperands_eq_some.1 hx
    constructor <;> simp [hidle, hroom, hb]
  | dtx =>
    obtain ⟨data, hdata, -⟩ := Option.map_eq_some_iff.1 h
    obtain ⟨hidle, hroom, hb⟩ := dtxOperands_eq_some.1 hdata
    constructor <;> simp [hidle, hroom, hb]
  | drx =>
    obtain ⟨frames, hframes, -⟩ := Option.map_eq_some_iff.1 h
    obtain ⟨hidle, hroom, hall⟩ := drxOperands_eq_some.1 hframes
    constructor <;> simp [hidle, hroom, hall]
  | cfg | tCommand | tData | tAck | tEndData => cases h

/-- Settles O42: each ground contradicts what holds of an operation whose operands are sampled. -/
theorem refusedIssuesChangeNothing : Obligations.RefusedIssuesChangeNothing := by
  intro i s hop hground
  refine refused_of_not_sampled hop (Option.eq_none_iff_forall_ne_some.2 (fun r hr => ?_))
  have hacc := accepted_of_sampled hr
  rcases hground with h | ⟨hi, h⟩ | ⟨hi, h⟩ | ⟨hi, k, hk, h⟩ | ⟨hi, h⟩ | ⟨hi, h⟩ | ⟨hi, h⟩ | ⟨hi, h⟩ | ⟨hi, h⟩ |
    ⟨hi, data, hdata, h⟩ | ⟨hi, h⟩
  · exact h hacc.idle
  · exact hacc.string hi (by simp [Memory.operand, h])
  · exact hacc.string hi (Memory.operand_of_incomplete h)
  · exact hacc.strings hi (Memory.stringsFrom_eq_none hk (by rwa [Nat.zero_add]))
  · simp [hacc.address hi] at h
  · obtain ⟨hty, ho⟩ := hacc.encArgs hi
    simp [hty, ho] at h
  · simp [hacc.code hi] at h
  · simp [hacc.frameRoom hi] at h
  · simp [hacc.payloadRoom hi] at h
  · cases h.symm.trans (hacc.framesRoom hi data hdata)
  · simp [hacc.dataRoom hi] at h

/-! ### What a result depends on -/

/-- The state with everything of `u` that is no input of an operation: the last results and `OUT`, what the sequencer
holds, and the host's fields. -/
def State.withUnseen (s u : State) : State :=
  { s with res := u.res, mem := { s.mem with out := u.mem.out }, run := u.run, host := u.host, readData := u.readData }

theorem State.eq_withUnseen {s u : State} (hparams : s.params = u.params) (hseq : s.seq = u.seq) (hcfg : s.cfg = u.cfg)
    (hargs : s.args = u.args) (hcount : s.mem.inCount = u.mem.inCount) (hstrs : s.mem.inStrs = u.mem.inStrs)
    (hdraws : s.draws = u.draws) : u = s.withUnseen u := by
  simp only [State.withUnseen, hparams, hseq, hcfg, hargs, hcount, hstrs, hdraws]

theorem Memory.stringsFrom_withOut (m : Memory) (out : List Bytes) (i n : Nat) :
    Memory.stringsFrom { m with out := out } i n = m.stringsFrom i n := by
  induction n generalizing i with
  | zero => rfl
  | succ n ih => simp only [Memory.stringsFrom, Memory.str_withOut, ih]

theorem drxOperands_withUnseen (s u : State) : drxOperands (s.withUnseen u) = drxOperands s := by
  have hstrings : (s.withUnseen u).mem.operands = s.mem.operands := Memory.stringsFrom_withOut _ _ _ _
  unfold drxOperands
  rw [hstrings]
  rfl

theorem sampled_withUnseen (i : Instr) (s u : State) : sampled i (s.withUnseen u) = sampled i s := by
  cases i with
  | drx => rw [sampled, drxOperands_withUnseen, sampled]
  | _ => rfl

/-- Two deliveries with the same result: the same registers and the same `OUT`. -/
structure SameResult (t t' : State) : Prop where
  res : t.res = t'.res
  out : t.mem.out = t'.mem.out

theorem sameResult_deliverString (s u : State) (r : Except OpError Bytes) :
    SameResult (s.deliverString r) ((s.withUnseen u).deliverString r) := by
  cases r <;> exact ⟨rfl, rfl⟩

theorem sameResult_deliverDec (s u : State) (r : Except OpError Packet) :
    SameResult (s.deliverDec r) ((s.withUnseen u).deliverDec r) := by
  cases r <;> exact ⟨rfl, rfl⟩

/-- R31: what an accepted operation delivers in two states that agree on its inputs: for `ENC` the delivery of one
encoding, and for the others the same result. -/
theorem exec_withUnseen {i : Instr} {s u t t' : State} (hop : isOperation i = true) (hs : sampled i s ≠ none)
    (h : exec i s = .next t) (h' : exec i (s.withUnseen u) = .next t') :
    SameResult t t' ∨ ∃ a ty p outcap cap, i = .enc ∧ t = s.deliverEnc (encodePacket a ty p outcap cap) ∧
      t' = (s.withUnseen u).deliverEnc (encodePacket a ty p outcap cap) := by
  rcases exec_of_sampled hop hs h with ⟨x, rfl, hx, rfl⟩ | ⟨x, rfl, hx, rfl⟩ | ⟨x, rfl, hx, rfl⟩ | ⟨x, rfl, hx, rfl⟩ |
    ⟨x, rfl, hx, rfl⟩ | ⟨x, rfl, hx, rfl⟩
  · simp only [exec, execEnc, show encOperands (s.withUnseen u) = some x from hx, Host.Outcome.next.injEq] at h'
    exact .inr ⟨_, _, _, _, _, rfl, rfl, h'.symm⟩
  · simp only [exec, execDec, show decOperands (s.withUnseen u) = some x from hx, Host.Outcome.next.injEq] at h'
    exact .inl (h' ▸ sameResult_deliverDec s u _)
  · simp only [exec, execCmd, show cmdOperands (s.withUnseen u) = some x from hx, Host.Outcome.next.injEq] at h'
    exact .inl (h' ▸ sameResult_deliverString s u _)
  · simp only [exec, execAck, show ackOperands (s.withUnseen u) = some x from hx, Host.Outcome.next.injEq] at h'
    exact .inl (h' ▸ sameResult_deliverString s u _)
  · simp only [exec, execDtx, show dtxOperands (s.withUnseen u) = some x from hx] at h'
    split at h' <;> cases h'
    exact .inl ⟨rfl, rfl⟩
  · simp only [exec, execDrx, (drxOperands_withUnseen s u).trans hx, Host.Outcome.next.injEq] at h'
    exact .inl (h' ▸ sameResult_deliverString s u _)

/-- Settles O43: the states differ in what no operation reads, and only a failed `ENC` keeps some of it. -/
theorem resultDependsOnInputsOnly : Obligations.ResultDependsOnInputsOnly := by
  intro i s s' t t' hop hparams hseq hcfg hargs hcount hstrs hdraws h h'
  have hs' := State.eq_withUnseen hparams hseq hcfg hargs hcount hstrs hdraws
  by_cases hr : sampled i s = none
  · have hr' : sampled i s' = none := by rw [hs', sampled_withUnseen, hr]
    cases (refused_of_not_sampled hop hr).1.symm.trans h
    cases (refused_of_not_sampled hop hr').1.symm.trans h'
    exact .inl ⟨rfl, rfl⟩
  · rw [hs'] at h'
    rcases exec_withUnseen hop hr h h' with ⟨hres, hout⟩ | ⟨a, ty, p, outcap, cap, rfl, rfl, rfl⟩
    · exact .inr ⟨hres, .inl hout⟩
    · cases hencode : encodePacket a ty p outcap cap with
      | ok f => exact .inr ⟨rfl, .inl rfl⟩
      | error e =>
        obtain ⟨-, rfl⟩ := encodePacket_error.1 hencode
        exact .inr ⟨rfl, .inr ⟨rfl, rfl, rfl, rfl⟩⟩

/-! ### How an operation ends -/

/-- The errors of the reassembly are frame errors (R173). -/
theorem reassembleFrom_error {a : BitVec 32} {cap : Nat} {frames : List Bytes} {acc : Bytes} {e : OpError}
    (h : reassembleFrom a cap frames acc = .error e) : ∃ c, e = .frame c := by
  induction frames generalizing acc with
  | nil => cases h
  | cons f rest ih =>
    unfold reassembleFrom at h
    split at h
    · rename_i he
      cases h
      exact receiveFrame_error he
    · cases h
    · exact ih h

/-- R173, R178: an accepted operation ends `OK`, or in the delivery of an error that leaves `OUT` empty (as it was for
`ENC`). Only `ACK` ends in a status error, `DTX` in none, and `CMD` only with a small staging buffer. -/
theorem exec_ends {i : Instr} {s t : State} (hop : isOperation i = true) (hs : sampled i s ≠ none)
    (h : exec i s = .next t) :
    t.res.kind = .ok ∨ ∃ e, t = s.deliverError e (if i = .enc then s.mem.out else []) ∧
      (i ≠ .ack → ∃ c, e = .frame c) ∧ i ≠ .dtx ∧ (i = .cmd → s.params.stageSize < 11 + s.cap) := by
  rcases exec_of_sampled hop hs h with ⟨x, rfl, -, rfl⟩ | ⟨x, rfl, -, rfl⟩ | ⟨x, rfl, -, rfl⟩ | ⟨x, rfl, -, rfl⟩ |
    ⟨x, rfl, -, rfl⟩ | ⟨x, rfl, -, rfl⟩
  · cases hr : encodePacket x.address x.ptype x.payload x.outcap.toNat s.cap with
    | ok f => exact .inl rfl
    | error e =>
      obtain ⟨-, rfl⟩ := encodePacket_error.1 hr
      exact .inr ⟨_, rfl, fun _ => ⟨_, rfl⟩, by simp, by simp⟩
  · cases hr : decodePacket x.buffer x.expected s.cap with
    | ok p => exact .inl rfl
    | error e => exact .inr ⟨e, rfl, fun _ => decodePacket_error hr, by simp, by simp⟩
  · cases hr : buildCommand x.code x.params s.cfg.address s.cap s.params.stageSize with
    | ok f => exact .inl rfl
    | error e =>
      obtain ⟨hspace, rfl⟩ := encodePacket_error.1 hr
      have hcap := s.le_cap
      have hle := commandPayload_length_le x.code x.params (show 0 < s.cap by omega)
      exact .inr ⟨_, rfl, fun _ => ⟨_, rfl⟩, by simp, fun _ => by omega⟩
  · cases hr : parseAck x s.cfg.address s.cap s.params.successSet with
    | ok y => exact .inl rfl
    | error e => exact .inr ⟨e, rfl, fun hne => absurd rfl hne, by simp, by simp⟩
  · exact .inl rfl
  · cases hr : reassemble x s.cfg.address s.cap with
    | ok y => exact .inl rfl
    | error e => exact .inr ⟨e, rfl, fun _ => reassembleFrom_error hr, by simp, by simp⟩

/-- Settles O44: an accepted operation ends `OK` or in one of the errors its row allows. -/
theorem operationsEndAsTabulated : Obligations.OperationsEndAsTabulated := by
  intro i s t hop hs h
  rcases exec_ends hop hs h with hok | ⟨e, rfl, hframe, hdtx, hcmd⟩
  · simp [hok]
  · refine ⟨fun hkind => ?_, fun hi => absurd hi hdtx, fun hi _ => hcmd hi⟩
    by_contra hne
    obtain ⟨c, rfl⟩ := hframe hne
    cases hkind

/-- Settles O45: the delivery of an error writes `OUT` as said and specifies no register but the status byte of a status
error. -/
theorem errorsDeliverNoPartOfAResult : Obligations.ErrorsDeliverNoPartOfAResult := by
  intro i s t hop hs h herror
  rcases exec_ends hop hs h with hok | ⟨e, rfl, -⟩
  · exact absurd hok herror
  · refine ⟨ended_deliver _ _ _, rfl, ?_⟩
    cases e with
    | frame c => exact ⟨rfl, rfl, rfl, rfl, ⟨nofun, nofun⟩⟩
    | status b => exact ⟨rfl, rfl, rfl, rfl, ⟨fun _ => rfl, fun _ => rfl⟩⟩

end Sys2Proof.Machine
end

section
/-! Strings handed over (spec/70_reset_and_hazards.md R205, spec/00_scope.md R9): a frame, any other bytes and a string
moved from `OUT` all become the next string of `IN`, or are dropped. -/

namespace Sys2Proof.Machine

open Sys2Proof

/-! ### `State.present` -/

theorem State.present_of_room {s : State} {bytes : Bytes} (hseq : s.seq ≠ .busy)
    (hroom : s.roomFor (s.mem.inCount + 1) bytes.length = true) :
    s.present bytes = s.withMem (s.mem.append bytes) := by
  rcases s.present_cases bytes with ⟨-, -, h⟩ | ⟨hbusy | hfull, -⟩
  · exact h
  · exact absurd hbusy hseq
  · cases hroom.symm.trans hfull

theorem State.present_of_dropped {s : State} {bytes : Bytes}
    (h : s.seq = .busy ∨ s.roomFor (s.mem.inCount + 1) bytes.length = false) : s.present bytes = s := by
  rcases s.present_cases bytes with ⟨hseq, hroom, -⟩ | ⟨-, hsame⟩
  · rcases h with hbusy | hfull
    · exact absurd hbusy hseq
    · cases hroom.symm.trans hfull
  · exact hsame

/-- The state `t` is `s` with the bytes as one more string of `IN`: every other string, the storage beyond the bytes,
`OUT` and every register are as before. -/
def AppendsString (s t : State) (bytes : Bytes) : Prop :=
  t.mem.inCount = s.mem.inCount + 1 ∧ t.mem.operand s.mem.inCount = some bytes ∧
    (∀ k, k ≠ s.mem.inCount → t.mem.str k = s.mem.str k) ∧
    (∀ j, bytes.length ≤ j →
      Assoc.get j (t.mem.str s.mem.inCount).cells = Assoc.get j (s.mem.str s.mem.inCount).cells) ∧
    t = { s with mem := { s.mem with inCount := t.mem.inCount, inStrs := t.mem.inStrs } }

theorem appendsString_present {s : State} {bytes : Bytes} (hseq : s.seq ≠ .busy)
    (hroom : s.roomFor (s.mem.inCount + 1) bytes.length = true) : AppendsString s (s.present bytes) bytes := by
  rw [State.present_of_room hseq hroom]
  refine ⟨rfl, Memory.operand_append _ _, fun k hk => ?_, fun j hj => ?_, rfl⟩
  · rw [State.withMem_mem, Memory.str_append, if_neg hk]
  · rw [State.withMem_mem, Memory.str_append, if_pos rfl, InStr.put, InStr.get_writeCells, if_neg (by omega)]

/-! ### Frames -/

/-- R205: the meaning of a frame is to hand its bytes over. -/
theorem exec_frame {i : Instr} (hop : isOperation i = false) (hcfg : i ≠ .cfg) (s : State) :
    exec i s = .next (s.present (encode i)) := by
  cases i with
  | tCommand | tData | tAck | tEndData => rfl
  | cfg => exact absurd rfl hcfg
  | enc | dec | cmd | ack | dtx | drx => cases hop

/-- An instruction with one of the four headers is no op word. -/
theorem isFrame_of_header {i : Instr} {a : BitVec 32} {len : BitVec 16} {body : Bytes}
    (h : i = .tCommand a len body ∨ i = .tData a len body ∨ i = .tAck a len body ∨ i = .tEndData a len body) :
    isOperation i = false ∧ i ≠ .cfg := by
  rcases h with rfl | rfl | rfl | rfl <;> exact ⟨rfl, nofun⟩

/-- Settles O33: the frame is handed over, and there is room for it. -/
theorem frameBecomesTheNextInputString : Obligations.FrameBecomesTheNextInputString := by
  intro i s a len body hi hseq hroom
  obtain ⟨hop, hcfg⟩ := isFrame_of_header hi
  exact ⟨_, exec_frame hop hcfg s, appendsString_present hseq hroom⟩

/-- Settles O34: the frame is handed over, and dropped. -/
theorem frameDroppedWhenBusyOrFull : Obligations.FrameDroppedWhenBusyOrFull := by
  intro i s a len body hi hdropped
  obtain ⟨hop, hcfg⟩ := isFrame_of_header hi
  rw [exec_frame hop hcfg, State.present_of_dropped hdropped]

/-! ### Carry and relay -/

/-- R198, R205: any bytes, a frame or not, are handed over as they are. -/
theorem carryBytes_eq (bytes : Bytes) (s : State) : carryBytes bytes s = .next (s.present bytes) := by
  unfold carryBytes
  split
  · rfl
  · rename_i i hi
    obtain ⟨henc, hop, hcfg⟩ := decodeFrame_ok hi
    rw [exec_frame hop hcfg, henc]

theorem relayString_of_get {s : State} {k : Nat} {x : Bytes} (h : s.mem.out[k]? = some x) :
    relayString k s = s.present x := by
  simp only [relayString, h]

theorem relayString_of_length_le {s : State} {k : Nat} (h : s.mem.out.length ≤ k) : relayString k s = s := by
  simp only [relayString, List.getElem?_eq_none h]

/-- Settles O56: both transports hand the bytes over, and there is room or not. -/
theorem transportAppendsToInput : Obligations.TransportAppendsToInput := by
  intro s hseq
  refine ⟨fun a bytes ha => ?_, fun k hk => ?_⟩
  · have haction : hostAction a s = .next (s.present bytes) := by
      rcases ha with rfl | ⟨k, rfl, hk⟩
      · exact carryBytes_eq bytes s
      · rw [hostAction, relayString_of_get hk]
    rw [haction]
    exact ⟨fun hroom => ⟨_, rfl, appendsString_present hseq hroom⟩,
      fun hfull => by rw [State.present_of_dropped (.inr hfull)]⟩
  · rw [hostAction, relayString_of_length_le hk]

end Sys2Proof.Machine
end

section
/-! The host's port (spec/10_state.md R23 to R25, R28, R29, R34; spec/20_memory.md R52, R56): reads and writes of the
registers and of the buffer spaces. -/

namespace Sys2Proof.Machine

open Sys2Proof

/-! ### The register map -/

/-- R25: the index of a register. -/
def RegName.index : RegName → Nat
  | .state => 0x00
  | .op => 0x01
  | .cfgAddr => 0x02
  | .cfgChunk => 0x03
  | .cfgCapsel => 0x04
  | .argAddr => 0x08
  | .argType => 0x09
  | .argCode => 0x0A
  | .argChunk => 0x0B
  | .argCapsel => 0x0C
  | .argOutcap => 0x0D
  | .resKind => 0x10
  | .resStatus => 0x11
  | .resCount => 0x12
  | .resAddr => 0x13
  | .resType => 0x14
  | .resLen => 0x15
  | .inCount => 0x18
  | .outCount => 0x19
  | .reset => 0x1A

theorem regAt_index (r : RegName) : regAt r.index = some r := by
  cases r <;> rfl

theorem index_of_regAt {index : Nat} {r : RegName} (h : regAt index = some r) : index = r.index := by
  unfold regAt at h
  split at h <;> cases h <;> rfl

theorem hostAction_writeReg {index : Nat} {r : RegName} (h : regAt index = some r) (v : Nat) (s : State) :
    hostAction (.writeReg index v) s = writeNamed r v s := by
  simp only [hostAction, writeRegister, h]

theorem hostAction_readReg {index : Nat} {r : RegName} (h : regAt index = some r) (s : State) :
    hostAction (.readReg index) s = .next (s.answerOr r.width (readValue r s)) := by
  simp only [hostAction, readRegister, h]

/-! ### Reads -/

@[simp] theorem State.answerOr_some (s : State) (w : Option Nat) (v : Nat) : s.answerOr w (some v) = s.answer v := by
  cases w <;> rfl

@[simp] theorem State.answerOr_none (s : State) (w : Nat) : s.answerOr (some w) none = s.answerFree w := rfl

@[simp] theorem State.answerOr_none_none (s : State) : s.answerOr none none = s.answerFreeCount := rfl

/-- A read of a register that has a value returns it. -/
theorem hostAction_readReg_of_value {r : RegName} {s : State} {v : Nat} (h : readValue r s = some v) :
    hostAction (.readReg r.index) s = .next { s with readData := v } := by
  rw [hostAction_readReg (regAt_index r), h, State.answerOr_some]
  rfl

/-- Settles O47: every read ends in `answerOr`, which writes the model's own two fields. -/
theorem readsHaveNoSideEffect : Obligations.ReadsHaveNoSideEffect := by
  intro a s ha
  have answered : ∀ w v, ∃ t, Host.Outcome.next (s.answerOr w v) = (.next t : Host.Outcome State Fault Refusal) ∧
      t = { s with readData := t.readData, draws := t.draws } := by
    intro w v
    obtain ⟨x, n, h⟩ := s.answerOr_eq w v
    exact ⟨_, rfl, by rw [h]⟩
  rcases ha with ⟨i, rfl⟩ | ⟨i, rfl⟩ | ⟨i, j, rfl⟩ | ⟨k, rfl⟩ | ⟨k, j, rfl⟩
  · obtain ⟨x, n, h⟩ := readRegister_eq i s
    exact ⟨_, rfl, by rw [h]⟩
  · exact answered _ _
  · exact answered _ _
  · exact answered _ _
  · exact answered _ _

/-- A read, while not `BUSY`, of a register that `readValue` shows then only, and that holds a defined value. -/
theorem hostAction_readReg_of_known {r : RegName} {s : State} {w : Nat} {x : Reg w} {v : BitVec w}
    (hr : readValue r s = if s.seq = .busy then none else x.onBus) (hseq : s.seq ≠ .busy) (hx : x = Reg.known v) :
    hostAction (.readReg r.index) s = .next { s with readData := v.toNat } :=
  hostAction_readReg_of_value (by rw [hr, if_neg hseq, hx]; rfl)

/-- Settles O48: each register's value, by its line of `readValue`. -/
theorem hostReadsReturnTheRegisters : Obligations.HostReadsReturnTheRegisters := by
  intro s
  refine ⟨?_, fun hseq => ⟨?_, ?_, ?_⟩, fun hseq => ⟨?_, ?_, ?_,
    fun _ => hostAction_readReg_of_known (r := .resStatus) rfl hseq,
    fun _ => hostAction_readReg_of_known (r := .resCount) rfl hseq,
    fun _ => hostAction_readReg_of_known (r := .resAddr) rfl hseq,
    fun _ => hostAction_readReg_of_known (r := .resType) rfl hseq,
    fun _ => hostAction_readReg_of_known (r := .resLen) rfl hseq,
    fun _ => hostAction_readReg_of_known (r := .argAddr) rfl hseq,
    fun _ => hostAction_readReg_of_known (r := .argType) rfl hseq,
    fun _ => hostAction_readReg_of_known (r := .argCode) rfl hseq,
    fun _ => hostAction_readReg_of_known (r := .argChunk) rfl hseq,
    fun _ => hostAction_readReg_of_known (r := .argCapsel) rfl hseq,
    fun _ => hostAction_readReg_of_known (r := .argOutcap) rfl hseq⟩⟩
  · refine hostAction_readReg_of_value (r := .state) ?_
    cases h : s.seq <;> simp [readValue, h, SeqState.code]
  · exact hostAction_readReg_of_value (r := .cfgAddr) (if_neg hseq)
  · exact hostAction_readReg_of_value (r := .cfgChunk) (if_neg hseq)
  · exact hostAction_readReg_of_value (r := .cfgCapsel) (if_neg hseq)
  · refine hostAction_readReg_of_value (r := .resKind) ?_
    cases h : s.res.kind <;> simp [readValue, h, hseq, ResKind.code]
  · exact hostAction_readReg_of_value (r := .inCount) (if_neg hseq)
  · exact hostAction_readReg_of_value (r := .outCount) (if_neg hseq)

theorem State.whenNotBusy_of_busy {α : Type} {s : State} (h : s.seq = .busy) (v : Option α) :
    s.whenNotBusy v = none := if_pos h

theorem State.whenNotBusy_of_ne {α : Type} {s : State} (h : s.seq ≠ .busy) (v : Option α) :
    s.whenNotBusy v = v := if_neg h

@[simp] theorem State.whenNotBusy_none {α : Type} (s : State) : s.whenNotBusy (none : Option α) = none :=
  ite_self _

theorem Memory.inLen_eq_none {m : Memory} {i : Nat} (h : m.inCount ≤ i ∨ (m.str i).len = none) : m.inLen i = none := by
  unfold Memory.inLen
  rcases h with h | h
  · exact if_neg (by omega)
  · rw [h, ite_self]

theorem Memory.inByte_eq_some {m : Memory} {i j n : Nat} {v : Byte} (hi : i < m.inCount) (hn : (m.str i).len = some n)
    (hj : j < n) (hv : Assoc.get j (m.str i).cells = some v) : m.inByte i j = some v := by
  simp [Memory.inByte, hi, hn, hj, hv]

theorem Memory.inByte_eq_none {m : Memory} {i j : Nat} (h : m.inCount ≤ i ∨ (m.str i).len = none ∨
    (∃ n, (m.str i).len = some n ∧ n ≤ j) ∨ Assoc.get j (m.str i).cells = none) : m.inByte i j = none := by
  unfold Memory.inByte
  split
  · rename_i hi
    split
    · rfl
    · rename_i n hn
      split
      · rename_i hj
        rcases h with h | h | ⟨n', hn', h⟩ | h
        · omega
        · cases hn.symm.trans h
        · cases hn.symm.trans hn'
          omega
        · exact h
      · rfl
  · rfl

theorem Memory.outByte_eq_none {m : Memory} {k j : Nat}
    (h : m.out.length ≤ k ∨ ∃ x, m.out[k]? = some x ∧ x.length ≤ j) : m.outByte k j = none := by
  unfold Memory.outByte
  rcases h with h | ⟨x, hx, h⟩
  · rw [List.getElem?_eq_none h]
  · simp only [hx]
    exact List.getElem?_eq_none h

/-- Settles O57: a value of the storage that is there is returned; where there is none, and while `BUSY`, a free value
is. -/
theorem hostReadsReturnTheBuffers : Obligations.HostReadsReturnTheBuffers := by
  intro s i j
  refine ⟨fun hseq => ⟨fun n v hi hn hj hv => ?_, fun n hi hn => ?_, fun x hx => ⟨?_, fun v hv => ?_⟩⟩,
    fun h => ?_, fun h => ?_, fun h => ?_, fun h => ?_⟩
  · simp [hostAction, State.whenNotBusy_of_ne hseq, Memory.inByte_eq_some hi hn hj hv, State.answer]
  · simp [hostAction, State.whenNotBusy_of_ne hseq, Memory.inLen, hi, hn, State.answer]
  · simp [hostAction, State.whenNotBusy_of_ne hseq, hx, State.answer]
  · simp [hostAction, State.whenNotBusy_of_ne hseq, Memory.outByte, hx, hv, State.answer]
  · rcases h with hbusy | h
    · simp [hostAction, State.whenNotBusy_of_busy hbusy]
    · simp [hostAction, Memory.inByte_eq_none h]
  · rcases h with hbusy | h
    · simp [hostAction, State.whenNotBusy_of_busy hbusy]
    · simp [hostAction, Memory.inLen_eq_none h]
  · rcases h with hbusy | h
    · simp [hostAction, State.whenNotBusy_of_busy hbusy]
    · simp [hostAction, Memory.outByte_eq_none h]
  · rcases h with hbusy | h
    · simp [hostAction, State.whenNotBusy_of_busy hbusy]
    · simp [hostAction, List.getElem?_eq_none h]

/-! ### Writes of the operand registers -/

/-- R23: the operand registers after a write of `v` to the register `r`, cut to its field. -/
def Args.write (r : RegName) (v : Nat) (a : Args) : Args :=
  match r with
  | .argAddr => { a with address := Reg.known (BitVec.ofNat 32 v) }
  | .argType => { a with ptype := Reg.known (BitVec.ofNat 8 v) }
  | .argCode => { a with code := Reg.known (BitVec.ofNat 8 v) }
  | .argChunk => { a with chunk := Reg.known (BitVec.ofNat 16 v) }
  | .argCapsel => { a with capsel := Reg.known (BitVec.ofNat 2 v) }
  | .argOutcap => { a with outcap := Reg.known (BitVec.ofNat 16 v) }
  | _ => a

/-- R23: the width of an operand register. -/
def RegName.argWidth : RegName → Option Nat
  | .argAddr => some 32
  | .argType => some 8
  | .argCode => some 8
  | .argChunk => some 16
  | .argCapsel => some 2
  | .argOutcap => some 16
  | _ => none

/-- R23, R34: a write of an operand register while the host may write. -/
theorem writeNamed_of_argWidth {r : RegName} {w v : Nat} {s : State} (hr : r.argWidth = some w) (hseq : s.seq ≠ .busy) :
    writeNamed r v s = .next (s.withArgs (s.args.write r v)) := by
  have hmay : s.hostMayWrite = true := by simp [State.hostMayWrite, hseq]
  cases r <;> cases hr <;> simp [writeNamed, writeArg, hmay, Args.write]

/-- A register written is read back, cut to its field. -/
theorem readValue_write_same {r : RegName} {w v : Nat} {s : State} (hr : r.argWidth = some w) (hseq : s.seq ≠ .busy) :
    readValue r (s.withArgs (s.args.write r v)) = some (v % 2 ^ w) := by
  cases r <;> cases hr <;> exact if_neg hseq

/-- Every register but the one written reads as before. -/
theorem readValue_write_other {r r' : RegName} (h : r' ≠ r) (v : Nat) (s : State) :
    readValue r' (s.withArgs (s.args.write r v)) = readValue r' s := by
  cases r with
  | argAddr | argType | argCode | argChunk | argCapsel | argOutcap =>
    cases r' <;> first | rfl | exact absurd rfl h
  | _ => rfl

/-- R23, R203: a write of an operand register, read back. -/
theorem operandRegister_readBack {r : RegName} {w : Nat} {s : State} (hr : r.argWidth = some w) (hseq : s.seq ≠ .busy)
    (v : Nat) :
    ∃ t u, hostAction (.writeReg r.index v) s = .next t ∧ hostAction (.readReg r.index) t = .next u ∧
      u.readData = v % 2 ^ w ∧
      (∀ other r', regAt other = some r' → other ≠ r.index → readValue r' t = readValue r' s) ∧
      t = { s with args := t.args } := by
  refine ⟨_, _, (hostAction_writeReg (regAt_index r) v s).trans (writeNamed_of_argWidth hr hseq),
    hostAction_readReg_of_value (readValue_write_same hr hseq), rfl, fun other r' hother hne => ?_, rfl⟩
  refine readValue_write_other (fun hsame => hne ?_) v s
  rw [index_of_regAt hother, hsame]

/-- Settles O49: the six operand registers and their widths. -/
theorem operandRegistersReadBack : Obligations.OperandRegistersReadBack := by
  intro s index width v hmem hseq
  simp only [List.mem_cons, List.not_mem_nil, or_false, Prod.mk.injEq] at hmem
  rcases hmem with ⟨rfl, rfl⟩ | ⟨rfl, rfl⟩ | ⟨rfl, rfl⟩ | ⟨rfl, rfl⟩ | ⟨rfl, rfl⟩ | ⟨rfl, rfl⟩
  · exact operandRegister_readBack (r := .argAddr) rfl hseq v
  · exact operandRegister_readBack (r := .argType) rfl hseq v
  · exact operandRegister_readBack (r := .argCode) rfl hseq v
  · exact operandRegister_readBack (r := .argChunk) rfl hseq v
  · exact operandRegister_readBack (r := .argCapsel) rfl hseq v
  · exact operandRegister_readBack (r := .argOutcap) rfl hseq v

/-! ### Writes that are ignored -/

/-- Settles O52: an index outside the list is reserved, or that of a register without a line in `writeNamed`. -/
theorem readOnlyRegistersIgnoreWrites : Obligations.ReadOnlyRegistersIgnoreWrites := by
  intro s index v hnot
  cases hr : regAt index with
  | none => simp only [hostAction, writeRegister, hr]
  | some r =>
    rw [hostAction_writeReg hr]
    rw [index_of_regAt hr] at hnot
    cases r with
    | op | argAddr | argType | argCode | argChunk | argCapsel | argOutcap | inCount | reset =>
      exact absurd (by decide) hnot
    | _ => rfl

theorem writeArg_of_busy {s : State} (h : s.seq = .busy) (f : Args → Args) : writeArg f s = s := by
  simp [writeArg, State.hostMayWrite, h]

theorem writeBuffer_of_busy {s : State} (h : s.seq = .busy) (inBounds : Bool) (f : Memory → Memory) :
    writeBuffer inBounds f s = s := by
  simp [writeBuffer, State.hostMayWrite, h]

/-- R165 (a), R161 (a): while `BUSY` every op word is refused. -/
theorem opWord_of_busy {s : State} (h : s.seq = .busy) (w : Byte) :
    operate w s = .next s ∧ issueWord w s = .next s := by
  cases hd : decodeOp w with
  | error e => exact opWord_refused hd s
  | ok i =>
    rw [operate_of_decodeOp hd, issueWord_of_decodeOp hd]
    rcases decodeOp_ok hd with ⟨-, rfl⟩ | ⟨-, hop⟩
    · have hcfg := cfgRefusedChangesNothing s (.inl (by simp [h]))
      exact ⟨hcfg, hcfg⟩
    · exact refused_of_not_sampled hop (sampled_eq_none_of_not_idle (by simp [h]))

theorem writeNamed_of_busy {s : State} {r : RegName} (h : s.seq = .busy) (hr : r ≠ .reset) (v : Nat) :
    writeNamed r v s = .next s := by
  cases r with
  | op => exact (opWord_of_busy h _).2
  | reset => exact absurd rfl hr
  | argAddr | argType | argCode | argChunk | argCapsel | argOutcap => rw [writeNamed, writeArg_of_busy h]
  | inCount => rw [writeNamed, writeBuffer_of_busy h]
  | _ => rfl

/-- Settles O50: each kind of host write, dropped. -/
theorem busyDropsHostWrites : Obligations.BusyDropsHostWrites := by
  intro a s hbusy ha
  rcases ha with ⟨w, rfl⟩ | ⟨b, rfl⟩ | ⟨k, rfl⟩ | ⟨index, v, hne, rfl⟩ | ⟨i, n, rfl⟩ | ⟨i, j, v, rfl⟩
  · exact (opWord_of_busy hbusy w).1
  · rw [hostAction_carry, carryBytes_eq, State.present_of_dropped (.inl hbusy)]
  · rw [hostAction]
    cases hk : s.mem.out[k]? with
    | none => rw [relayString_of_length_le (List.getElem?_eq_none_iff.1 hk)]
    | some x => rw [relayString_of_get hk, State.present_of_dropped (.inl hbusy)]
  · cases hr : regAt index with
    | none => simp only [hostAction, writeRegister, hr]
    | some r =>
      rw [hostAction_writeReg hr]
      refine writeNamed_of_busy hbusy ?_ v
      rintro rfl
      exact hne (regAt_reset hr)
  · rw [hostAction, writeBuffer_of_busy hbusy]
  · rw [hostAction, writeBuffer_of_busy hbusy]

/-! ### Writes of `IN` -/

theorem writeBuffer_of_inBounds {s : State} {inBounds : Bool} (hseq : s.seq ≠ .busy) (h : inBounds = true)
    (f : Memory → Memory) : writeBuffer inBounds f s = s.withMem (f s.mem) := by
  simp [writeBuffer, State.hostMayWrite, hseq, h]

theorem Memory.cell_setByte (m : Memory) (i j i' j' : Nat) (v : Byte) :
    Assoc.get j' ((m.setByte i j v).str i').cells =
      if i' = i ∧ j' = j then some v else Assoc.get j' (m.str i').cells := by
  unfold Memory.setByte
  rw [Memory.str_setStr]
  by_cases hi : i' = i
  · subst hi
    simp [Assoc.get_set]
  · simp [hi]

theorem Memory.len_setByte (m : Memory) (i j i' : Nat) (v : Byte) :
    ((m.setByte i j v).str i').len = (m.str i').len := by
  unfold Memory.setByte
  rw [Memory.str_setStr]
  split
  · rename_i hi
    rw [hi]
  · rfl

theorem Memory.len_setLen (m : Memory) (i n i' : Nat) :
    ((m.setLen i n).str i').len = if i' = i then some n else (m.str i').len := by
  unfold Memory.setLen
  rw [Memory.str_setStr]
  split <;> rfl

theorem Memory.cells_setLen (m : Memory) (i n i' : Nat) : ((m.setLen i n).str i').cells = (m.str i').cells := by
  unfold Memory.setLen
  rw [Memory.str_setStr]
  split
  · rename_i hi
    rw [hi]
  · rfl

/-- Settles O51: the write is performed, and the storage is read back by the rules of its update. -/
theorem inputWritesAreLocal : Obligations.InputWritesAreLocal := by
  intro s hseq
  refine ⟨fun i j v hi hj => ?_, fun i n hi hn => ?_, fun n hn => ?_⟩
  · have hbounds : (s.stringInBounds i && fits s.params.maxData (j + 1)) = true := by
      simp [State.stringInBounds, hi, hj]
    refine ⟨s.withMem (s.mem.setByte i j v), ?_, ?_, fun i' j' hne => ?_, fun i' => Memory.len_setByte _ _ _ _ _, rfl⟩
    · rw [hostAction, writeBuffer_of_inBounds hseq hbounds]
    · rw [State.withMem_mem, Memory.cell_setByte, if_pos ⟨rfl, rfl⟩]
    · rw [State.withMem_mem, Memory.cell_setByte, if_neg (by simpa using hne)]
  · have hbounds : (s.stringInBounds i && fits s.params.maxData n) = true := by
      simp [State.stringInBounds, hi, hn]
    refine ⟨s.withMem (s.mem.setLen i n), ?_, ?_, fun i' hne => ?_, fun i' j' => ?_, rfl⟩
    · rw [hostAction, writeBuffer_of_inBounds hseq hbounds]
    · rw [State.withMem_mem, Memory.len_setLen, if_pos rfl]
    · rw [State.withMem_mem, Memory.len_setLen, if_neg hne]
    · rw [State.withMem_mem, Memory.cells_setLen]
  · rw [hostAction_writeReg (r := .inCount) rfl, writeNamed, writeBuffer_of_inBounds hseq hn]
    rfl

end Sys2Proof.Machine
end
